-- ==== Sys2Proof/Word.lean ====
section
/-! DEFINITION. The word types of the block: bytes of the buffers, 32-bit host registers and command words (R7),
and 64-bit entries of SMP_BUF and NRM_BUF (R7, R56, R57). -/

namespace Sys2Proof

/-- One byte of a buffer (R27). -/
abbrev Byte := BitVec 8

/-- A host register or a command word: 32 bits (R7, R49). -/
abbrev Word := BitVec 32

/-- A 64-bit buffer entry: a two's-complement sample (R56) or a binary64 pattern (R57). -/
abbrev Entry := BitVec 64

end Sys2Proof
end

