-- ==== Sys2Proof/Syntax.lean ====
section
/-! DEFINITION. The commands of the block: one constructor per row of spec/opcode_table.json (R3, R53). -/

namespace Sys2Proof

/-- The seven opcode rows of R53. A word that is none of them is ILLEGAL_COMMAND, which is no row (R52). -/
inductive Instr
  /-- DECODE.I8, word 0x00000101 (R64). -/
  | decodeI8
  /-- DECODE.I16, word 0x00000201 (R65). -/
  | decodeI16
  /-- DECODE.I24, word 0x00000301 (R66). -/
  | decodeI24
  /-- DECODE.I32, word 0x00000401 (R67). -/
  | decodeI32
  /-- DECODE.I64, word 0x00000801 (R68). -/
  | decodeI64
  /-- DECODE.BADWIDTH: a DECODE word whose WIDTH field is `width`, none of the five widths (R71). -/
  | decodeBadWidth (width : BitVec 8)
  /-- NORMALIZE, word 0x00000002 (R72). -/
  | normalize
  deriving DecidableEq, Repr

end Sys2Proof
end

