-- ==== Sys2Proof/WellFormed.lean ====
section
/-! DEFINITION. Which instruction terms stand for a command word: only DECODE.BADWIDTH has an operand, and its
WIDTH must lie outside the five supported widths (R51, R71). -/

namespace Sys2Proof

/-- The supported sample byte widths are exactly 1, 2, 3, 4 and 8 (R7, R51). -/
def supportedWidth (width : BitVec 8) : Bool :=
  width == 1 || width == 2 || width == 3 || width == 4 || width == 8

/-- A term that some command word stands for (R53, R71). -/
def Instr.wellFormed : Instr → Bool
  | .decodeI8 => true
  | .decodeI16 => true
  | .decodeI24 => true
  | .decodeI32 => true
  | .decodeI64 => true
  | .decodeBadWidth width => !supportedWidth width
  | .normalize => true

end Sys2Proof
end

