-- ==== Sys2Proof/Decode.lean ====
section
/-! DEFINITION. Command words: the fields of R49, the decoder of R53 (total, in the order the rule tests), and the
encoder written from the same word table. -/

namespace Sys2Proof

/-- OP, bits [3:0] (R49, R50). -/
def opField (w : Word) : BitVec 4 := w.extractLsb' 0 4

/-- RSV0, bits [7:4], reserved (R49, R52). -/
def rsv0Field (w : Word) : BitVec 4 := w.extractLsb' 4 4

/-- WIDTH, bits [15:8] (R49, R51). -/
def widthField (w : Word) : BitVec 8 := w.extractLsb' 8 8

/-- RSV1, bits [31:16], reserved (R49, R52). -/
def rsv1Field (w : Word) : BitVec 16 := w.extractLsb' 16 16

/-- Why a word is ILLEGAL_COMMAND (R52, R53, R83). -/
inductive IllegalWord
  /-- RSV0 ≠ 0 or RSV1 ≠ 0. -/
  | reservedBits
  /-- NORMALIZE with WIDTH ≠ 0 (R51, D34). -/
  | normalizeWithWidth
  /-- OP is neither 1 nor 2. -/
  | reservedOp
  /-- Fewer than the four bytes that every command has (R58); no CTRL write can deliver this. -/
  | notOneWord
  deriving DecidableEq, Repr

/-- What a word is: a command, or ILLEGAL_COMMAND with its reason (R52). -/
inductive Decoded
  | command (i : Instr)
  | illegal (why : IllegalWord)
  deriving DecidableEq, Repr

/-- The DECODE command that a WIDTH value selects (R51). -/
def decodeOfWidth (width : BitVec 8) : Instr :=
  if width = 1 then .decodeI8
  else if width = 2 then .decodeI16
  else if width = 3 then .decodeI24
  else if width = 4 then .decodeI32
  else if width = 8 then .decodeI64
  else .decodeBadWidth width

/-- decodeCmd of R53. -/
def decodeWord (w : Word) : Decoded :=
  if rsv0Field w ≠ 0 ∨ rsv1Field w ≠ 0 then .illegal .reservedBits
  else if opField w = 0x1 then .command (decodeOfWidth (widthField w))
  else if opField w = 0x2 then
    if widthField w = 0 then .command .normalize else .illegal .normalizeWithWidth
  else .illegal .reservedOp

/-- The command in a Decoded, if it is one. -/
def Decoded.command? : Decoded → Option Instr
  | .command i => some i
  | .illegal _ => none

/-- A word from its four bytes, the first the least significant (R36). -/
def wordOfBytes (b0 b1 b2 b3 : Byte) : Word := b3 ++ b2 ++ b1 ++ b0

/-- The four bytes of a word as the register window holds them, lowest address first (R36). -/
def bytesOfWord (w : Word) : List Byte :=
  [w.extractLsb' 0 8, w.extractLsb' 8 8, w.extractLsb' 16 8, w.extractLsb' 24 8]

/-- The decoder on any bytes: one command takes exactly four of them (R58), the rest is handed back. -/
def decodeBytes : List Byte → Decoded × List Byte
  | b0 :: b1 :: b2 :: b3 :: rest => (decodeWord (wordOfBytes b0 b1 b2 b3), rest)
  | short => (.illegal .notOneWord, short)

/-- A command word from its OP and WIDTH, the reserved fields zero (R49, R52). -/
def commandWord (op : BitVec 4) (width : BitVec 8) : Word :=
  (0 : BitVec 16) ++ width ++ (0 : BitVec 4) ++ op

/-- The word of each command (R50, R51 and the word table of R53). -/
def encode : Instr → Word
  | .decodeI8 => commandWord 0x1 1
  | .decodeI16 => commandWord 0x1 2
  | .decodeI24 => commandWord 0x1 3
  | .decodeI32 => commandWord 0x1 4
  | .decodeI64 => commandWord 0x1 8
  | .decodeBadWidth width => commandWord 0x1 width
  | .normalize => commandWord 0x2 0

/-- The 32-bit word of a table row whose low `nbits` bits are `w`; every bit above them is 0. -/
def tableWord (nbits w : Nat) : Word := BitVec.ofNat 32 (w % 2 ^ nbits)

/-- What the decoder reads from a table row's bits laid out as CTRL's four bytes. -/
def decodeTableWord (nbits w : Nat) : Option Instr :=
  if nbits ≤ 32 then (decodeBytes (bytesOfWord (tableWord nbits w))).1.command? else none

end Sys2Proof
end

