-- ==== Sys2Proof/Config.lean ====
section
/-! DEFINITION. What the spec leaves to an instance of the block: the parameters of R6, and the source of the
any-value reads of R99. Nothing here has a value that a proof could use beyond its legal range. -/

namespace Sys2Proof

/-- The rounding rule at an exact tie, the parameter TIE_MODE (R6, R11). -/
inductive TieMode
  /-- EVEN: the even neighbour. -/
  | even
  /-- AWAY: the neighbour of larger magnitude. -/
  | away
  deriving DecidableEq, Repr, Inhabited

/-- The parameters IN_CAP (bytes), SAMPLE_CAP (entries) and TIE_MODE of R6. The fourth, LATENCY, is no number in
this model: it is where the engine's turn stands among the host's (notes/assumptions/2.md). -/
structure Params where
  inCap : Nat
  sampleCap : Nat
  tieMode : TieMode
  deriving DecidableEq, Repr

/-- The legal values of R6: 1 ≤ IN_CAP ≤ 2^28 and 1 ≤ SAMPLE_CAP ≤ 2^25. -/
abbrev Params.legal (p : Params) : Prop :=
  1 ≤ p.inCap ∧ p.inCap ≤ 2 ^ 28 ∧ 1 ≤ p.sampleCap ∧ p.sampleCap ≤ 2 ^ 25

/-- OPEN (R6, D6): IN_CAP less one, of which nothing is known but its range. -/
opaque Config.inCapLessOne : Fin (2 ^ 28)

/-- OPEN (R6, D6): SAMPLE_CAP less one, of which nothing is known but its range. -/
opaque Config.sampleCapLessOne : Fin (2 ^ 25)

/-- OPEN (R6, D14): the block's tie rule. -/
opaque Config.tieMode : TieMode

/-- The parameters of the instance that `State.reset` describes: legal, and otherwise unknown (R6, R30). -/
def Config.params : Params :=
  { inCap := inCapLessOne.val + 1, sampleCap := sampleCapLessOne.val + 1, tieMode := tieMode }

/-- FREE VALUE (R99, R46(c)): what the n-th any-value read of a run returns. -/
opaque Config.freeWord : Nat → Word

end Sys2Proof
end

