-- ==== Sys2Proof/Machine/State.lean ====
section
/-! DEFINITION. The state of the block as plain data (R13), the events that move it, the reasons a step can stop, and
the state after reset (R93). -/

namespace Sys2Proof.Machine

/-- STATUS.ERR_CODE: the five values that occur (R21, R83). -/
inductive ErrCode
  | ok
  | formatError
  | divideByZero
  | illegalCommand
  | capacityError
  deriving DecidableEq, Repr

/-- STATUS.FMT_CAUSE: zero and the four FormatError sub-causes (R22, R83). -/
inductive FmtCause
  | none
  | unsupportedWidth
  | truncated
  | excess
  | zeroChannels
  deriving DecidableEq, Repr

/-- The fields of STATUS (R18). Its reserved bits are no storage: they read 0 (R31). -/
structure Status where
  busy : Bool
  done : Bool
  errCode : ErrCode
  fmtCause : FmtCause
  errSeen : Bool
  deriving DecidableEq, Repr

/-- The engine state (R32): Idle, or Busy with the word latched from CTRL. -/
inductive Engine
  | idle
  | busy (cmd : Word)
  deriving DecidableEq, Repr

/-- The three byte arrays (R27). -/
inductive Buffer
  | inBuf
  | smpBuf
  | nrmBuf
  deriving DecidableEq, Repr

/-- The contents of one buffer: its written bytes by index, indices strictly rising. A byte that is not listed is
unwritten and has no value (R27). -/
abbrev Memory := List Host.Cell

/-- One host bus transaction (R59): direction, byte address, size in bytes and, for a write, the data. -/
inductive Transaction
  | write (addr : Word) (size : Nat) (data : Word)
  | read (addr : Word) (size : Nat)
  deriving DecidableEq, Repr

/-- What the outside does next. The total order of R46 is the order of a list of these. -/
inductive Event
  /-- The host's next transaction (R37, R59). -/
  | host (t : Transaction)
  /-- POLL (R59): read STATUS until BUSY = 0 and DONE = 1. While the engine is Busy, `spins` more reads return before
  the engine completes: the loop's part of LATENCY. -/
  | poll (spins : Nat)
  /-- LATENCY has passed: the engine takes its completion step (R32, R101). Nothing happens if it is Idle. -/
  | engine
  /-- The platform asserts the reset input (R92). -/
  | reset
  deriving DecidableEq, Repr

/-- The ways a host access is a bus error (R39, R40). All of them are safe: the model stops where the spec says it
faults, and no state changes. -/
inductive BusErrorKind
  /-- A size the window does not take (R39). -/
  | width
  /-- An address that is not a multiple of the size (R39). -/
  | misaligned
  /-- A register offset that R16 does not list (R40). -/
  | unmappedOffset
  /-- Some byte lies beyond the buffer's capacity (R40). -/
  | beyondCapacity
  /-- The address is in no window (R40). -/
  | outsideWindows
  /-- A write to the NRM window (R40). -/
  | readOnlyBuffer
  deriving DecidableEq, Repr

/-- The model faults of R87, all of them named by the spec. -/
inductive Fault
  /-- Raised by a host transaction that is a bus error (R39, R40). Safe. -/
  | busError (kind : BusErrorKind)
  /-- Raised by a host write to CTRL, a RW register, IN_BUF or SMP_BUF while the engine is Busy (R98). Safe. -/
  | hostWriteWhileBusy
  /-- Raised by a host read, a DECODE or a NORMALIZE that needs a byte of the buffer which nothing has written
  (R103, R70, R80). Safe. -/
  | unwrittenByte (buffer : Buffer)
  deriving DecidableEq, Repr

/-- Why the model has no meaning for an instruction. -/
inductive Refusal
  /-- Raised by exec for an instruction whose meaning is not written yet; no arm does so now. Safe. -/
  | notModelled (mnemonic : String)
  deriving DecidableEq, Repr

/-- Which engine outputs are not defined to the host yet, command by command (R46, R97): the outputs of a command that
was accepted, until a STATUS read shows DONE, but for what the host has written itself since (R96). -/
structure Unseen where
  /-- SAMPLE_COUNT, an output of DECODE. -/
  count : Bool
  /-- SMP_BUF, an output of DECODE, but for the bytes of `since`. -/
  smp : Bool
  /-- MAXABS and NRM_BUF, the outputs of NORMALIZE. -/
  nrm : Bool
  /-- The SMP_BUF bytes that the host has written since `smp` was set. -/
  since : Memory
  deriving DecidableEq, Repr

/-- Every output is defined to the host. -/
def Unseen.none : Unseen := { count := false, smp := false, nrm := false, since := [] }

/-- The state (R13): the registers of R16, the three buffers of R27, the engine state of R32; the instance's parameters
(R6), which no step changes; and the model's own account of the outside: what it will do (`script`), what its reads
returned (`readLog`, newest first), which outputs it has not seen (`unseen`, R46), and how many any-value reads have been
drawn (`draws`, R99). -/
structure State where
  params : Params
  status : Status
  channels : Word
  frames : Word
  inLen : Word
  sampleCount : Word
  maxAbs : BitVec 64
  inBuf : Memory
  smpBuf : Memory
  nrmBuf : Memory
  engine : Engine
  script : List Event
  readLog : List Word
  unseen : Unseen
  draws : Nat
  deriving DecidableEq, Repr

/-- What one step, one access or one command answers. -/
abbrev Result := Host.Outcome State Fault Refusal

/-- STATUS after reset: 0x00000000 (R18, R93). -/
def Status.reset : Status :=
  { busy := false, done := false, errCode := .ok, fmtCause := .none, errSeen := false }

/-- The reset state of an instance with parameters `p` (R93): registers 0, the engine Idle, every buffer byte
unwritten. The last four fields are the model's own (notes/assumptions/3.md to 6.md). -/
def State.resetWith (p : Params) : State :=
  { params := p
    status := Status.reset
    channels := 0
    frames := 0
    inLen := 0
    sampleCount := 0
    maxAbs := 0
    inBuf := []
    smpBuf := []
    nrmBuf := []
    engine := .idle
    script := []
    readLog := []
    unseen := Unseen.none
    draws := 0 }

/-- The machine right after reset (R93), for an instance whose parameters are open (R6). -/
def State.reset : State := State.resetWith Config.params

end Sys2Proof.Machine
end

