-- ==== Sys2Proof/Machine/Flags.lean ====
section
/-! DEFINITION. The STATUS register: its codes, its word, and the two ways it changes, at acceptance and at completion
of a command (R17 to R23). The block has no arithmetic flags (R33, R79). -/

namespace Sys2Proof.Machine

/-- The ERR_CODE values of R21 and R83. -/
def ErrCode.code : ErrCode → BitVec 4
  | .ok => 0
  | .formatError => 1
  | .divideByZero => 2
  | .illegalCommand => 3
  | .capacityError => 4

/-- The FMT_CAUSE values of R22 and R83. -/
def FmtCause.code : FmtCause → BitVec 4
  | .none => 0
  | .unsupportedWidth => 1
  | .truncated => 2
  | .excess => 3
  | .zeroChannels => 4

/-- STATUS as the host reads it (R18): reserved bits [3:2], [15:12] and [31:17] are 0. -/
def Status.word (st : Status) : Word :=
  (0 : BitVec 15) ++ BitVec.ofBool st.errSeen ++ (0 : BitVec 4) ++ st.fmtCause.code ++ st.errCode.code
    ++ (0 : BitVec 2) ++ BitVec.ofBool st.done ++ BitVec.ofBool st.busy

/-- Acceptance of a command: BUSY ← 1, DONE ← 0, nothing else (R17, R19 to R21). -/
def Status.accept (st : Status) : Status :=
  { st with busy := true, done := false }

/-- Completion of a command with result `e` and sub-cause `c`: BUSY ← 0, DONE ← 1, ERR_CODE and FMT_CAUSE written,
ERR_SEEN set if the result is an error (R19 to R23, R32). -/
def Status.complete (e : ErrCode) (c : FmtCause) (st : Status) : Status :=
  { busy := false, done := true, errCode := e, fmtCause := c, errSeen := st.errSeen || e != .ok }

/-- The host's test for completion, (v & 0x3) = 0x2 (R46(b), R59). -/
def Status.showsDone (st : Status) : Bool := !st.busy && st.done

end Sys2Proof.Machine
end

