-- ==== Sys2Proof/Machine/Ops.lean ====
section
/-! DEFINITION. The named operations over buffers and registers through which every rule touches the state (R10):
byte arrays with unwritten bytes, little-endian values, 64-bit entries, acceptance of a command, and its completion
with or without an error (`raise`, the block's only kind of exception, R84). -/

namespace Sys2Proof.Machine

/-! ## Byte arrays -/

/-- The canonical form of a buffer: indices strictly rising. No listed byte can equal what an unlisted one reads as,
because an unlisted byte has no value (R27). -/
abbrev Memory.wf (m : Memory) : Prop := m.Pairwise (fun x y => x.1 < y.1)

/-- Every written byte lies within the buffer's `cap` bytes (R27). -/
abbrev Memory.within (cap : Nat) (m : Memory) : Prop := ∀ x ∈ m, x.1 < cap

/-- Byte `a`, or none if it is unwritten (R27). -/
def Memory.read (m : Memory) (a : Nat) : Option Byte := m.lookup a

/-- The cells of the bytes `bs` placed from index `a` on. -/
def cellsFrom (a : Nat) : List Byte → Memory
  | [] => []
  | b :: bs => (a, b) :: cellsFrom (a + 1) bs

/-- The bytes `bs` written from index `a` on, every other byte as before. -/
def Memory.store (m : Memory) (a : Nat) (bs : List Byte) : Memory :=
  m.filter (fun x => x.1 < a) ++ cellsFrom a bs ++ m.filter (fun x => a + bs.length ≤ x.1)

/-- The values `f i, f (i+1), …, f (i+n-1)`, or none if one of them is missing. -/
def collect {α : Type} (f : Nat → Option α) (i : Nat) : Nat → Option (List α)
  | 0 => some []
  | n + 1 =>
    match f i, collect f (i + 1) n with
    | some x, some xs => some (x :: xs)
    | _, _ => none

/-- Bytes `a .. a+n-1` in memory order, or none if one of them is unwritten. -/
def Memory.readBytes (m : Memory) (a n : Nat) : Option (List Byte) := collect m.read a n

/-- The unsigned value of bytes in memory order, the first the least significant (R35, R36). -/
def ofBytes : List Byte → Nat
  | [] => 0
  | b :: bs => b.toNat + 256 * ofBytes bs

/-- The `n` low bytes of `v` in memory order (R36). -/
def toBytes : Nat → Nat → List Byte
  | 0, _ => []
  | n + 1, v => BitVec.ofNat 8 v :: toBytes n (v / 256)

/-! ## 64-bit entries -/

/-- The eight bytes of an entry, little-endian (R36). -/
def entryBytes (v : Entry) : List Byte := toBytes 8 v.toNat

/-- Entry `i`, bytes 8i .. 8i+7, little-endian (R27, R36). -/
def Memory.readEntry (m : Memory) (i : Nat) : Option Entry :=
  (m.readBytes (8 * i) 8).map (fun bs => BitVec.ofNat 64 (ofBytes bs))

/-- Entries 0 .. of a buffer written with `vs`, every later entry as before: the loop of SmpWrite (R63) or of NrmWrite
(R72), as the one step it is (R45). -/
def Memory.writeEntries (m : Memory) (vs : List Entry) : Memory := m.store 0 (vs.flatMap entryBytes)

/-- enc_64 (R9): the 64-bit two's-complement pattern of a sample (R56). -/
def enc64 (v : Int) : Entry := BitVec.ofInt 64 v

/-- InRead(a, n) as bytes (R10): bytes a .. a+n-1 of IN_BUF. -/
def inRead (s : State) (a n : Nat) : Option (List Byte) := s.inBuf.readBytes a n

/-- SmpRead(i) (R10): the signed value of SMP_BUF entry i. -/
def smpRead (s : State) (i : Nat) : Option Int := (s.smpBuf.readEntry i).map BitVec.toInt

/-- SMP_BUF entries 0 .. with the samples `vs` and SAMPLE_COUNT with their number (R63). -/
def writeSamples (vs : List Int) (s : State) : State :=
  { s with
    smpBuf := s.smpBuf.writeEntries (vs.map enc64)
    sampleCount := BitVec.ofNat 32 vs.length }

/-- REG[MAXABS] ← zext_64(m) (R72, R73). -/
def setMaxAbs (m : Nat) (s : State) : State := { s with maxAbs := BitVec.ofNat 64 m }

/-- NRM_BUF entries 0 .. with the patterns `fs` (R72). -/
def writeNormalized (fs : List Entry) (s : State) : State :=
  { s with nrmBuf := s.nrmBuf.writeEntries fs }

/-! ## What the host has not seen -/

/-- Command `i` is accepted: its outputs (R97) are unseen. DECODE.BADWIDTH has none (R71). -/
def Unseen.start (i : Instr) (u : Unseen) : Unseen :=
  match i with
  | .decodeI8 => { u with count := true, smp := true, since := [] }
  | .decodeI16 => { u with count := true, smp := true, since := [] }
  | .decodeI24 => { u with count := true, smp := true, since := [] }
  | .decodeI32 => { u with count := true, smp := true, since := [] }
  | .decodeI64 => { u with count := true, smp := true, since := [] }
  | .decodeBadWidth _ => u
  | .normalize => { u with nrm := true }

/-- The command word `w` is accepted: a word that is no command has no outputs (R84). -/
def Unseen.accept (w : Word) (u : Unseen) : Unseen :=
  match decodeWord w with
  | .command i => u.start i
  | .illegal _ => u

/-- The host has written `bs` at byte `a` of a buffer: those bytes are defined to it from now on (R96). -/
def Unseen.wrote (b : Buffer) (a : Nat) (bs : List Byte) (u : Unseen) : Unseen :=
  match b with
  | .inBuf => u
  | .smpBuf => if u.smp then { u with since := u.since.store a bs } else u
  | .nrmBuf => u

/-- Byte `a` of a buffer is an output that is not defined to the host (R46(c), R97). -/
def Unseen.hides (u : Unseen) (b : Buffer) (a : Nat) : Bool :=
  match b with
  | .inBuf => false
  | .smpBuf => u.smp && (u.since.read a).isNone
  | .nrmBuf => u.nrm

/-! ## Acceptance and completion of a command -/

/-- A CTRL write of `w` is accepted: the word is latched, the engine is Busy, BUSY = 1 and DONE = 0 (R17); the host has
not seen this command's outputs (R97). -/
def acceptCommand (w : Word) (s : State) : State :=
  { s with engine := .busy w, status := s.status.accept, unseen := s.unseen.accept w }

/-- The completion step's effect on STATUS and the engine (R32). -/
def finish (e : ErrCode) (c : FmtCause) (s : State) : State :=
  { s with engine := .idle, status := s.status.complete e c }

/-- raise E(info) (R10, R84): the command ends with error E. No trap is taken and nothing but STATUS is written: this is
the whole of taking an exception on this block. -/
def raise (e : ErrCode) (c : FmtCause) (s : State) : State := finish e c s

/-- complete() (R10, R63): the command ends with success. -/
def complete (s : State) : State := finish .ok .none s

/-- The way back from an error (R86): none is needed. The engine is Idle after the completion step, and the next CTRL
write is accepted when this holds. -/
def accepting (s : State) : Bool :=
  match s.engine with
  | .idle => true
  | .busy _ => false

/-- The reset input (R92 to R94): the reset state, whatever ran before; the outside (its script, what it has read) and
the count of draws are no state of the block and stay. -/
def resetInput (s : State) : State :=
  { State.resetWith s.params with script := s.script, readLog := s.readLog, draws := s.draws }

/-- The outside's remaining events. -/
def setScript (es : List Event) (s : State) : State := { s with script := es }

/-! ## What the host receives -/

/-- A read returns `v` to the host. -/
def returnRead (v : Word) (s : State) : State := { s with readLog := v :: s.readLog }

/-- An any-value read of `n` bytes (R99): a fresh free value, of which the data path carries the low n bytes. -/
def returnAny (n : Nat) (s : State) : State :=
  { s with
    readLog := BitVec.ofNat 32 ((Config.freeWord s.draws).toNat % 2 ^ (8 * n)) :: s.readLog
    draws := s.draws + 1 }

/-- Bytes in memory order, those marked hidden taken from `draw` instead. -/
def overlay : List Bool → List Byte → List Byte → List Byte
  | h :: hs, b :: bs, d :: ds => (if h then d else b) :: overlay hs bs ds
  | _, _, _ => []

/-- A read of the bytes `bs`, of which the hidden ones are any value (R46(c)): those are taken from a fresh free value.
DESIGN CHOICE (notes/assumptions/13.md): each such read draws anew, so that for hidden bytes R43's sentence that a repeated
read returns the same value gives way to R46(c). Safe. -/
def returnHidden (hidden : List Bool) (bs : List Byte) (s : State) : State :=
  { s with
    readLog :=
      BitVec.ofNat 32 (ofBytes (overlay hidden bs (toBytes bs.length (Config.freeWord s.draws).toNat))) :: s.readLog
    draws := s.draws + 1 }

/-- A read of STATUS returns its word; if it shows BUSY = 0 and DONE = 1 it is the acquire point of R46(b) and R47, after
which every output is defined. -/
def returnStatus (s : State) : State :=
  { s with
    readLog := s.status.word :: s.readLog
    unseen := if s.status.showsDone then Unseen.none else s.unseen }

end Sys2Proof.Machine
end

