-- ==== Sys2Proof/Machine/Operands.lean ====
section
/-! DEFINITION. The operands of the commands: the header of a DECODE (R60), its checks (R61), and how the bytes of a
sample of each width make a signed integer (R54, R55, R64 to R68). -/

namespace Sys2Proof.Machine

/-- N = F × C, exact (R60). -/
def sampleTotal (s : State) : Nat := s.frames.toNat * s.channels.toNat

/-- R = N × W, exact (R60). -/
def bytesRequired (W : Nat) (s : State) : Nat := sampleTotal s * W

/-- decodeCheck(W) of R61: the first check that fails, in the order of R85. -/
def decodeCheck (W : Nat) (s : State) : Option (ErrCode × FmtCause) :=
  if s.channels = 0 then some (.formatError, .zeroChannels)
  else if s.inLen.toNat < bytesRequired W s then some (.formatError, .truncated)
  else if bytesRequired W s < s.inLen.toNat then some (.formatError, .excess)
  else if s.params.inCap < bytesRequired W s ∨ s.params.sampleCap < sampleTotal s then
    some (.capacityError, .none)
  else none

/-- sint_n (R9): the two's-complement value of the n-bit pattern of `u`. -/
def sint (n u : Nat) : Int := (BitVec.ofNat n u).toInt

/-- asr (R9): floor(v / 2^s). -/
def asr (v : Int) (s : Nat) : Int := v / 2 ^ s

/-- A signed 8-bit sample (R64). -/
def unpackI8 (bs : List Byte) : Int := sint 8 (ofBytes bs)

/-- A signed 16-bit little-endian sample (R65). -/
def unpackI16 (bs : List Byte) : Int := sint 16 (ofBytes bs)

/-- A signed 24-bit sample (R55, R66): the memory-order word [0x00, b0, b1, b2] read as signed 32-bit, shifted right
arithmetically by 8. The zero byte is the least significant one (90_conflicts.md C1). -/
def unpackI24 (bs : List Byte) : Int := asr (sint 32 (ofBytes (0x00 :: bs))) 8

/-- A signed 32-bit little-endian integer sample, never a float (R67). -/
def unpackI32 (bs : List Byte) : Int := sint 32 (ofBytes bs)

/-- A signed 64-bit little-endian sample (R68). -/
def unpackI64 (bs : List Byte) : Int := sint 64 (ofBytes bs)

/-- The N samples of width W, sample i from the bytes at offset i × W (R62), or none if a byte is unwritten. -/
def inSamples (W : Nat) (unpack : List Byte → Int) (s : State) : Option (List Int) :=
  collect (fun i => (inRead s (i * W) W).map unpack) 0 (sampleTotal s)

/-- The samples s_0 .. s_(N-1) of SMP_BUF (R72), or none if a byte is unwritten. -/
def smpSamples (N : Nat) (s : State) : Option (List Int) := collect (smpRead s) 0 N

end Sys2Proof.Machine
end

