-- ==== Sys2Proof/Machine/Rounding.lean ====
section
/-! DEFINITION. The arithmetic of the normalizer: exact rounding of a rational to an integer (R11), conversion of a
rational to binary64 (R11, R57), and the output encoding (R76). -/

namespace Sys2Proof.Machine

/-- a / q rounded to an integer, ties by `mode`: the magnitude part of roundT (R11). -/
def roundMagnitude (mode : TieMode) (a q : Nat) : Nat :=
  let t := a / q
  let r := a % q
  if q < 2 * r then t + 1
  else if 2 * r = q then
    match mode with
    | .away => t + 1
    | .even => t + t % 2
  else t

/-- roundT(p, q) (R11): the magnitude is rounded and the sign put back. -/
def roundT (mode : TieMode) (p : Int) (q : Nat) : Int :=
  if p < 0 then -(roundMagnitude mode p.natAbs q : Int) else roundMagnitude mode p.natAbs q

/-- floor(log2(a / b)) for a, b > 0. -/
def binaryExponent (a b : Nat) : Int :=
  let e : Int := (Nat.log2 a : Int) - Nat.log2 b
  if b * 2 ^ e.toNat ≤ a * 2 ^ (-e).toNat then e else e - 1

/-- The low 63 bits of the binary64 pattern nearest a / b, ties to the even significand (R11, R57). With e the exponent
of the result's binade (at least -1022) and sig = round(a / b / 2^(e-52)), the biased exponent and the fraction come out
of one sum: a significand that rounds up to 2^53 carries into the exponent, one below 2^52 is subnormal. A value too large
gives the pattern of infinity; no command needs one. -/
def binary64Magnitude (a b : Nat) : Nat :=
  if a = 0 then 0
  else
    let e := max (binaryExponent a b) (-1022)
    let sig := roundMagnitude .even (a * 2 ^ (52 - e).toNat) (b * 2 ^ (e - 52).toNat)
    min ((e + 1022).toNat * 2 ^ 52 + sig) (0x7FF * 2 ^ 52)

/-- toBinary64(p / q) (R11): sign bit [63], biased exponent [62:52], fraction [51:0] (R57). -/
def toBinary64 (p : Int) (q : Nat) : BitVec 64 :=
  BitVec.ofBool (decide (p < 0)) ++ BitVec.ofNat 63 (binary64Magnitude p.natAbs q)

/-- encNorm(k, s) (R76): k / 10000 as binary64, a zero with the sign of the sample. -/
def encNorm (k s : Int) : BitVec 64 :=
  if k = 0 ∧ s < 0 then 0x8000000000000000
  else if k = 0 then 0x0000000000000000
  else toBinary64 k 10000

/-- m of R73: the largest magnitude, 0 of no samples. -/
def maxAbsOf (ss : List Int) : Nat := ss.foldr (fun x m => max x.natAbs m) 0

/-- The pattern of one normalized sample (R75, R76). -/
def normalizeSample (mode : TieMode) (m : Nat) (s : Int) : BitVec 64 :=
  encNorm (roundT mode (10000 * s) m) s

end Sys2Proof.Machine
end

