-- ==== Sys2Proof/Machine/Normalize.lean ====
section
/-! DEFINITION. The normalizer: NORMALIZE (41_normalize.md). -/

namespace Sys2Proof.Machine

/-- The phases of R72 after the samples are read: the reduction writes MAXABS (R73), a zero divisor raises
DivideByZeroError (R74), else every sample is scaled (R75, R76). -/
def normalizeSamples (ss : List Int) (s : State) : State :=
  if maxAbsOf ss = 0 then raise .divideByZero .none (setMaxAbs 0 s)
  else
    complete
      (writeNormalized (ss.map (normalizeSample s.params.tieMode (maxAbsOf ss))) (setMaxAbs (maxAbsOf ss) s))

/-- NORMALIZE (R72): the capacity check comes before any read; an unwritten sample byte faults (R80). -/
def execNormalize (s : State) : Result :=
  if s.params.sampleCap < s.sampleCount.toNat then .next (raise .capacityError .none s)
  else
    match smpSamples s.sampleCount.toNat s with
    | none => .fault (.unwrittenByte .smpBuf)
    | some ss => .next (normalizeSamples ss s)

end Sys2Proof.Machine
end

