-- ==== Sys2Proof/Machine/Unpack.lean ====
section
/-! DEFINITION. The unpacker: the five DECODE commands and DECODE.BADWIDTH (40_unpack.md). -/

namespace Sys2Proof.Machine

/-- What every DECODE.Ix does (R60 to R63, R70): the checks; then all N samples, which must be written bytes; then the
outputs and completion. -/
def decodeCommand (W : Nat) (unpack : List Byte → Int) (s : State) : Result :=
  match decodeCheck W s with
  | some (e, c) => .next (raise e c s)
  | none =>
    match inSamples W unpack s with
    | none => .fault (.unwrittenByte .inBuf)
    | some vs => .next (complete (writeSamples vs s))

/-- DECODE.I8 (R64). -/
def execDecodeI8 (s : State) : Result := decodeCommand 1 unpackI8 s

/-- DECODE.I16 (R65). -/
def execDecodeI16 (s : State) : Result := decodeCommand 2 unpackI16 s

/-- DECODE.I24 (R66). -/
def execDecodeI24 (s : State) : Result := decodeCommand 3 unpackI24 s

/-- DECODE.I32 (R67). -/
def execDecodeI32 (s : State) : Result := decodeCommand 4 unpackI32 s

/-- DECODE.I64 (R68). -/
def execDecodeI64 (s : State) : Result := decodeCommand 8 unpackI64 s

/-- DECODE.BADWIDTH (R71): FormatError(UNSUPPORTED_WIDTH) before any other check. -/
def execDecodeBadWidth (s : State) : Result := .next (raise .formatError .unsupportedWidth s)

end Sys2Proof.Machine
end

