-- ==== Sys2Proof/Machine/Dispatch.lean ====
section
/-! DEFINITION. The dispatch: one arm per constructor of Instr, each one direct call of its meaning. -/

namespace Sys2Proof.Machine

def exec (i : Instr) (s : State) : Host.Outcome State Fault Refusal :=
  match i with
  | .decodeI8 => Sys2Proof.Machine.execDecodeI8 s
  | .decodeI16 => Sys2Proof.Machine.execDecodeI16 s
  | .decodeI24 => Sys2Proof.Machine.execDecodeI24 s
  | .decodeI32 => Sys2Proof.Machine.execDecodeI32 s
  | .decodeI64 => Sys2Proof.Machine.execDecodeI64 s
  | .decodeBadWidth _ => Sys2Proof.Machine.execDecodeBadWidth s
  | .normalize => Sys2Proof.Machine.execNormalize s

end Sys2Proof.Machine
end

