-- ==== Sys2Proof/Machine/Engine.lean ====
section
/-! DEFINITION. The engine: its completion step runs the latched command (R32). -/

namespace Sys2Proof.Machine

/-- The whole effect of a command word: its command's meaning, or ILLEGAL_COMMAND (R53, R82, R84). -/
def runCommand (w : Word) (s : State) : Result :=
  match decodeWord w with
  | .command i => exec i s
  | .illegal _ => .next (raise .illegalCommand .none s)

/-- The engine's turn (R32, R101): a Busy engine completes its command; an Idle one does nothing. -/
def engineStep (s : State) : Result :=
  match s.engine with
  | .idle => .next s
  | .busy cmd => runCommand cmd s

end Sys2Proof.Machine
end

