-- ==== Sys2Proof/Machine/Bus.lean ====
section
/-! DEFINITION. The host: the bus windows (R38), widths, alignment and bus errors (R39, R40), the access primitives
(R37, R41 to R43), accesses while the engine is Busy (R98, R99), and POLL (R59). -/

namespace Sys2Proof.Machine

/-! ## The register map -/

/-- The ten host registers (R16). -/
inductive HostReg
  | ctrl
  | status
  | channels
  | frames
  | inLen
  | sampleCount
  | maxAbsLo
  | maxAbsHi
  | inCap
  | sampleCap
  deriving DecidableEq, Repr

/-- The offset table of R16. -/
def registerAt (off : Nat) : Option HostReg :=
  if off = 0x00 then some .ctrl
  else if off = 0x04 then some .status
  else if off = 0x08 then some .channels
  else if off = 0x0C then some .frames
  else if off = 0x10 then some .inLen
  else if off = 0x14 then some .sampleCount
  else if off = 0x18 then some .maxAbsLo
  else if off = 0x1C then some .maxAbsHi
  else if off = 0x20 then some .inCap
  else if off = 0x24 then some .sampleCap
  else none

/-- The value a register holds (R16): CTRL reads 0 (R17), the reserved bits of STATUS are 0 (R18), MAXABS is two halves
(R29), the capacities are constants (R30). -/
def registerValue (r : HostReg) (s : State) : Word :=
  match r with
  | .ctrl => 0
  | .status => s.status.word
  | .channels => s.channels
  | .frames => s.frames
  | .inLen => s.inLen
  | .sampleCount => s.sampleCount
  | .maxAbsLo => s.maxAbs.extractLsb' 0 32
  | .maxAbsHi => s.maxAbs.extractLsb' 32 32
  | .inCap => BitVec.ofNat 32 s.params.inCap
  | .sampleCap => BitVec.ofNat 32 s.params.sampleCap

/-- The registers that commands write and that R46(c) and R99 name: SAMPLE_COUNT and MAXABS. -/
def outputRegister : HostReg → Bool
  | .sampleCount => true
  | .maxAbsLo => true
  | .maxAbsHi => true
  | .ctrl => false
  | .status => false
  | .channels => false
  | .frames => false
  | .inLen => false
  | .inCap => false
  | .sampleCap => false

/-- Host writes to these registers are ignored (R31, R41). -/
def readOnlyRegister : HostReg → Bool
  | .status => true
  | .maxAbsLo => true
  | .maxAbsHi => true
  | .inCap => true
  | .sampleCap => true
  | .ctrl => false
  | .channels => false
  | .frames => false
  | .inLen => false
  | .sampleCount => false

/-! ## The buffers -/

/-- The contents of a buffer. -/
def bufferOf (b : Buffer) (s : State) : Memory :=
  match b with
  | .inBuf => s.inBuf
  | .smpBuf => s.smpBuf
  | .nrmBuf => s.nrmBuf

/-- A buffer's contents replaced. -/
def setBuffer (b : Buffer) (m : Memory) (s : State) : State :=
  match b with
  | .inBuf => { s with inBuf := m }
  | .smpBuf => { s with smpBuf := m }
  | .nrmBuf => { s with nrmBuf := m }

/-- The size of a buffer in bytes (R27). -/
def capacityOf (p : Params) : Buffer → Nat
  | .inBuf => p.inCap
  | .smpBuf => 8 * p.sampleCap
  | .nrmBuf => 8 * p.sampleCap

/-- The buffers that commands write and that R46(c) and R99 name: SMP_BUF and NRM_BUF. -/
def outputBuffer : Buffer → Bool
  | .inBuf => false
  | .smpBuf => true
  | .nrmBuf => true

/-! ## Any-value reads -/

/-- A register whose value is an output that is not defined to the host (R97). -/
def Unseen.hidesRegister (u : Unseen) : HostReg → Bool
  | .sampleCount => u.count
  | .maxAbsLo => u.nrm
  | .maxAbsHi => u.nrm
  | .ctrl => false
  | .status => false
  | .channels => false
  | .frames => false
  | .inLen => false
  | .inCap => false
  | .sampleCap => false

/-- A host read of this register returns any value: every output register while the engine is Busy (R99), and with the
engine Idle those whose command's completion has not been seen (R46(c), R97). -/
def anyValueRegister (r : HostReg) (s : State) : Bool :=
  if accepting s then s.unseen.hidesRegister r else outputRegister r

/-- Which of the `n` bytes from byte `a` on are not defined to the host. -/
def hiddenBytes (b : Buffer) (a n : Nat) (s : State) : List Bool :=
  (List.range n).map (fun j => s.unseen.hides b (a + j))

/-! ## The bus binding -/

/-- What a bus access reaches: a register, or a buffer from a byte index on. -/
inductive BusTarget
  | register (r : HostReg)
  | buffer (b : Buffer) (a : Nat)
  | error (kind : BusErrorKind)
  deriving DecidableEq, Repr

/-- The buffer windows of R38 and the byte index in them. -/
def windowOf (addr : Nat) : Option (Buffer × Nat) :=
  if 0x10000000 ≤ addr ∧ addr < 0x20000000 then some (.inBuf, addr - 0x10000000)
  else if 0x20000000 ≤ addr ∧ addr < 0x30000000 then some (.smpBuf, addr - 0x20000000)
  else if 0x30000000 ≤ addr ∧ addr < 0x40000000 then some (.nrmBuf, addr - 0x30000000)
  else none

/-- What an access of `size` bytes at register offset `off` reaches (R39, R40). -/
def registerTarget (off size : Nat) : BusTarget :=
  if size ≠ 4 then .error .width
  else if off % 4 ≠ 0 then .error .misaligned
  else
    match registerAt off with
    | none => .error .unmappedOffset
    | some r => .register r

/-- What an access of `size` bytes at byte `a` of a buffer reaches (R39, R40). -/
def bufferTarget (p : Params) (b : Buffer) (a size : Nat) : BusTarget :=
  if size ≠ 1 ∧ size ≠ 2 ∧ size ≠ 4 then .error .width
  else if a % size ≠ 0 then .error .misaligned
  else if capacityOf p b < a + size then .error .beyondCapacity
  else .buffer b a

/-- What a bus access reaches (R38 to R40). -/
def busTarget (p : Params) (addr size : Nat) : BusTarget :=
  if addr < 0x100 then registerTarget addr size
  else
    match windowOf addr with
    | none => .error .outsideWindows
    | some (b, a) => bufferTarget p b a size

/-! ## The primitives of R37 -/

/-- HostRegWrite (R37): read-only registers ignore it (R41); while Busy it is a violation (R98); to CTRL it starts a
command (R17, R43); what it writes is visible to the next access (R96). -/
def hostRegWrite (r : HostReg) (v : Word) (s : State) : Result :=
  if readOnlyRegister r then .next s
  else if !accepting s then .fault .hostWriteWhileBusy
  else
    match r with
    | .ctrl => .next (acceptCommand v s)
    | .channels => .next { s with channels := v }
    | .frames => .next { s with frames := v }
    | .inLen => .next { s with inLen := v }
    | .sampleCount => .next { s with sampleCount := v, unseen := { s.unseen with count := false } }
    | .status => .next s
    | .maxAbsLo => .next s
    | .maxAbsHi => .next s
    | .inCap => .next s
    | .sampleCap => .next s

/-- HostRegRead (R37): an output that is not defined to the host returns any value (R46(c), R99), a fresh one at each read
(DESIGN CHOICE while Idle, safe: notes/assumptions/13.md); a STATUS read may be the acquire point (R46(b)). -/
def hostRegRead (r : HostReg) (s : State) : Result :=
  if anyValueRegister r s then .next (returnAny 4 s)
  else
    match r with
    | .status => .next (returnStatus s)
    | .ctrl => .next (returnRead (registerValue .ctrl s) s)
    | .channels => .next (returnRead (registerValue .channels s) s)
    | .frames => .next (returnRead (registerValue .frames s) s)
    | .inLen => .next (returnRead (registerValue .inLen s) s)
    | .sampleCount => .next (returnRead (registerValue .sampleCount s) s)
    | .maxAbsLo => .next (returnRead (registerValue .maxAbsLo s) s)
    | .maxAbsHi => .next (returnRead (registerValue .maxAbsHi s) s)
    | .inCap => .next (returnRead (registerValue .inCap s) s)
    | .sampleCap => .next (returnRead (registerValue .sampleCap s) s)

/-- The bytes `bs` stored at byte `a` of a buffer by the host, and defined to it from now on (R96). -/
def hostStore (b : Buffer) (a : Nat) (bs : List Byte) (s : State) : State :=
  setBuffer b ((bufferOf b s).store a bs) { s with unseen := s.unseen.wrote b a bs }

/-- HostInWrite and HostSmpWrite (R37): the low `n` bytes of `v`, little-endian (R42). NRM_BUF is read-only to the host
(R40); while Busy the write is a violation (R98). -/
def hostBufWrite (b : Buffer) (a n : Nat) (v : Word) (s : State) : Result :=
  if b = .nrmBuf then .fault (.busError .readOnlyBuffer)
  else if !accepting s then .fault .hostWriteWhileBusy
  else .next (hostStore b a (toBytes n v.toNat) s)

/-- HostInRead, HostSmpRead and HostNrmRead (R37): any value for an output buffer while the engine is Busy (R99); else a
fault for an unwritten byte (R27, R103); else the unsigned little-endian value of `n` bytes, where bytes that are not
defined to the host are any value (R46(c), R97), a fresh one at each read (DESIGN CHOICE, safe:
notes/assumptions/13.md). -/
def hostBufRead (b : Buffer) (a n : Nat) (s : State) : Result :=
  if outputBuffer b && !accepting s then .next (returnAny n s)
  else
    match (bufferOf b s).readBytes a n with
    | none => .fault (.unwrittenByte b)
    | some bs =>
      if (hiddenBytes b a n s).any id then .next (returnHidden (hiddenBytes b a n s) bs s)
      else .next (returnRead (BitVec.ofNat 32 (ofBytes bs)) s)

/-- One host transaction (R59). A bus error changes no state: the model faults (R39, R40). -/
def hostAccess (t : Transaction) (s : State) : Result :=
  match t with
  | .write addr size data =>
    match busTarget s.params addr.toNat size with
    | .error kind => .fault (.busError kind)
    | .register r => hostRegWrite r data s
    | .buffer b a => hostBufWrite b a size data s
  | .read addr size =>
    match busTarget s.params addr.toNat size with
    | .error kind => .fault (.busError kind)
    | .register r => hostRegRead r s
    | .buffer b a => hostBufRead b a size s

/-- One turn of POLL (R59). The engine Idle: STATUS is read, and the loop ends if it shows DONE. The engine Busy: while
spins are left STATUS is read and the loop goes on, and then the engine completes. -/
def pollStep (spins : Nat) (rest : List Event) (s : State) : Result :=
  if accepting s then
    .next (setScript (if s.status.showsDone then rest else .poll spins :: rest) (returnStatus s))
  else
    match spins with
    | 0 => engineStep s
    | k + 1 => .next (setScript (.poll k :: rest) (returnStatus s))

end Sys2Proof.Machine
end

