-- ==== Sys2Proof/Machine/Step.lean ====
section
/-! DEFINITION. One step of the whole: the first event of the script happens (R46); with no event left, a Busy engine
completes (R101) and an Idle block stays as it is (R100). -/

namespace Sys2Proof.Machine

/-- One step. -/
def step (s : State) : Host.Outcome State Fault Refusal :=
  match s.script with
  | [] => engineStep s
  | .engine :: rest => engineStep (setScript rest s)
  | .host t :: rest => hostAccess t (setScript rest s)
  | .poll spins :: rest => pollStep spins rest s
  | .reset :: rest => .next (resetInput (setScript rest s))

/-- The command word `w` accepted from CTRL (R17) with the engine's turn next: the block fetches nothing (R14, R48), so
this is where its next command stands. -/
def State.withFetchWord (s : State) (nbits w : Nat) : State :=
  setScript (.engine :: s.script) (acceptCommand (tableWord nbits w) s)

end Sys2Proof.Machine
end

