-- ==== Sys2Proof/Machine/Program.lean ====
section
/-! DEFINITION. The host program notation of R59: each form is the events it stands for, to be put on a script. -/

namespace Sys2Proof.Machine

/-- The offset of a register (R16). -/
def registerOffset : HostReg → Word
  | .ctrl => 0x00
  | .status => 0x04
  | .channels => 0x08
  | .frames => 0x0C
  | .inLen => 0x10
  | .sampleCount => 0x14
  | .maxAbsLo => 0x18
  | .maxAbsHi => 0x1C
  | .inCap => 0x20
  | .sampleCap => 0x24

/-- The bus window of a buffer (R38). -/
def windowBase : Buffer → Nat
  | .inBuf => 0x10000000
  | .smpBuf => 0x20000000
  | .nrmBuf => 0x30000000

/-- The bus address of byte `a` of a buffer (R38). -/
def busAddress (b : Buffer) (a : Nat) : Word := BitVec.ofNat 32 (windowBase b + a)

/-- WR32 of a register. -/
def writeReg (r : HostReg) (v : Word) : Event := .host (.write (registerOffset r) 4 v)

/-- RD32 of a register. -/
def readReg (r : HostReg) : Event := .host (.read (registerOffset r) 4)

/-- WR8, WR16 or WR32 of a buffer, by the size `n` in bytes. -/
def writeBuf (b : Buffer) (a n : Nat) (v : Word) : Event := .host (.write (busAddress b a) n v)

/-- RD8, RD16 or RD32 of a buffer, by the size `n` in bytes. -/
def readBuf (b : Buffer) (a n : Nat) : Event := .host (.read (busAddress b a) n)

/-- The pseudo-commands DECODE.Ix and NORMALIZE: a CTRL write of the command's word. -/
def command (i : Instr) : Event := writeReg .ctrl (encode i)

/-- WR64 SMP+a: the low word, then the high word. -/
def writeSmp64 (a : Nat) (v : Entry) : List Event :=
  [writeBuf .smpBuf a 4 (v.extractLsb' 0 32), writeBuf .smpBuf (a + 4) 4 (v.extractLsb' 32 32)]

/-- RD64 NRM+a: the low word, then the high word. -/
def readNrm64 (a : Nat) : List Event := [readBuf .nrmBuf a 4, readBuf .nrmBuf (a + 4) 4]

end Sys2Proof.Machine
end

