-- ==== Sys2Proof/Safety.lean ====
section
/-! DEFINITION. The terms that claims use: which states the block can be in, when a run has ended, what a state looks
like after a command has ended, and the rule that all five DECODE.Ix commands follow. -/

namespace Sys2Proof.Machine

/-! ## Invariants -/

/-- Every buffer is in canonical form and within its size (R27). -/
abbrev State.buffersWf (s : State) : Prop :=
  (s.inBuf.wf ∧ s.inBuf.within s.params.inCap) ∧
    (s.smpBuf.wf ∧ s.smpBuf.within (8 * s.params.sampleCap)) ∧
    (s.nrmBuf.wf ∧ s.nrmBuf.within (8 * s.params.sampleCap))

/-- The combinations of STATUS fields that occur: (BUSY, DONE) is never (1,1) (R18), FMT_CAUSE is nonzero exactly for
FORMAT_ERROR (R22), an error is always seen (R23). -/
abbrev Status.legal (st : Status) : Prop :=
  ¬(st.busy = true ∧ st.done = true) ∧ (st.fmtCause ≠ .none ↔ st.errCode = .formatError) ∧
    (st.errCode ≠ .ok → st.errSeen = true)

/-- What is unseen at least, given `u`, while the engine is in this state: the outputs of the command that runs (R97). -/
def Engine.hides (e : Engine) (u : Unseen) : Unseen :=
  match e with
  | .idle => u
  | .busy cmd => u.accept cmd

/-- What holds of the outputs the host has not seen: the bytes it has written since are SMP_BUF's own (R96), none is kept
for a buffer that is seen, and the outputs of the command that runs are unseen (R97). -/
abbrev State.unseenWf (s : State) : Prop :=
  s.unseen.since.wf ∧ (∀ x ∈ s.unseen.since, s.smpBuf.read x.1 = some x.2) ∧
    (s.unseen.smp = false → s.unseen.since = []) ∧
    s.engine.hides s.unseen = s.unseen

/-- What holds in every state of a run: legal parameters (R6), well-formed buffers (R27), a legal STATUS, BUSY = 1
exactly while the engine is Busy (R19), MAXABS at most 2^63 (R29), and a consistent account of what the host has not seen. -/
abbrev State.Inv (s : State) : Prop :=
  s.params.legal ∧ s.buffersWf ∧ s.status.legal ∧ (s.status.busy = true ↔ accepting s = false) ∧
    s.maxAbs.toNat ≤ 2 ^ 63 ∧ s.unseenWf

/-- A run has ended: the host has taken its last step and the engine is Idle (R100). A run that faulted never gets
here, because a fault has no next state (R87). -/
abbrev State.final (s : State) : Prop := s.script = [] ∧ s.engine = .idle

/-- `n` steps, stopping at the first fault or refusal. -/
def stepN : Nat → State → Result
  | 0, s => .next s
  | n + 1, s =>
    match step s with
    | .next t => stepN n t
    | .fault r => .fault r
    | .refused r => .refused r

/-! ## States after a command -/

/-- `s` after a command has ended with error `e` and sub-cause `c`: only STATUS and the engine differ (R84). -/
def errorState (e : ErrCode) (c : FmtCause) (s : State) : State :=
  { s with
    engine := .idle
    status := { busy := false, done := true, errCode := e, fmtCause := c, errSeen := true } }

/-- STATUS after a command has ended with success: ERR_SEEN as it was (R23, R63). -/
def successStatus (s : State) : Status :=
  { busy := false, done := true, errCode := .ok, fmtCause := .none, errSeen := s.status.errSeen }

/-- The error that the command word `w` meets in `s`, as R85 orders them, with OK and no sub-cause when none applies. An
unwritten sample is not 0 (R80). -/
def firstError (w : Word) (s : State) : ErrCode × FmtCause :=
  let op := w.extractLsb' 0 4
  let width := w.extractLsb' 8 8
  let N := s.frames.toNat * s.channels.toNat
  let R := N * width.toNat
  if w.extractLsb' 4 4 ≠ 0 ∨ w.extractLsb' 16 16 ≠ 0 ∨ (op ≠ 1 ∧ op ≠ 2) ∨ (op = 2 ∧ width ≠ 0) then
    (.illegalCommand, .none)
  else if op = 1 ∧ width.toNat ∉ [1, 2, 3, 4, 8] then (.formatError, .unsupportedWidth)
  else if op = 1 ∧ s.channels = 0 then (.formatError, .zeroChannels)
  else if op = 1 ∧ s.inLen.toNat < R then (.formatError, .truncated)
  else if op = 1 ∧ R < s.inLen.toNat then (.formatError, .excess)
  else if op = 1 ∧ (s.params.inCap < R ∨ s.params.sampleCap < N) then (.capacityError, .none)
  else if op = 2 ∧ s.params.sampleCap < s.sampleCount.toNat then (.capacityError, .none)
  else if op = 2 ∧ ∀ i, i < s.sampleCount.toNat → smpRead s i = some 0 then (.divideByZero, .none)
  else (.ok, .none)

/-! ## The host's view -/

/-- The address of a transaction. -/
def Transaction.address : Transaction → Word
  | .write addr _ _ => addr
  | .read addr _ => addr

/-- The size of a transaction in bytes. -/
def Transaction.bytes : Transaction → Nat
  | .write _ size _ => size
  | .read _ size => size

/-- An access of `n` bytes at byte `a` of a buffer that is no bus error (R39, R40). -/
abbrev goodAccess (p : Params) (b : Buffer) (a n : Nat) : Prop :=
  (n = 1 ∨ n = 2 ∨ n = 4) ∧ a % n = 0 ∧ a + n ≤ capacityOf p b

/-! ## The rule of a DECODE.Ix -/

/-- The rule of DECODE.Ix for width `W` and command word `word`, where `value raw j` is the sample j that the raw bytes
stand for (R60 to R63 and R70, as R64 to R68 put them together): the word decodes to the command; the checks fail in
their order, with nothing but STATUS written; with the checks passed, an unwritten byte faults, and written bytes give the
N samples in SMP_BUF, N in SAMPLE_COUNT, success in STATUS, and nothing else. -/
def DecodeRule (W : Nat) (word : Word) (value : (Nat → Byte) → Nat → Int) (i : Instr) : Prop :=
  decodeWord word = .command i ∧
    ∀ s : State, s.params.legal →
      let N := s.frames.toNat * s.channels.toNat
      let R := N * W
      let L := s.inLen.toNat
      (s.channels = 0 → exec i s = .next (errorState .formatError .zeroChannels s)) ∧
      (s.channels ≠ 0 → L < R → exec i s = .next (errorState .formatError .truncated s)) ∧
      (s.channels ≠ 0 → R < L → exec i s = .next (errorState .formatError .excess s)) ∧
      (s.channels ≠ 0 → L = R → (s.params.inCap < R ∨ s.params.sampleCap < N) →
        exec i s = .next (errorState .capacityError .none s)) ∧
      (s.channels ≠ 0 → L = R → R ≤ s.params.inCap → N ≤ s.params.sampleCap →
        (∃ a, a < R ∧ s.inBuf.read a = none) → exec i s = .fault (.unwrittenByte .inBuf)) ∧
      (s.channels ≠ 0 → L = R → R ≤ s.params.inCap → N ≤ s.params.sampleCap →
        ∀ raw : Nat → Byte, (∀ a, a < R → s.inBuf.read a = some (raw a)) →
          ∃ t, exec i s = .next t ∧
            t = { s with
                  smpBuf := t.smpBuf
                  sampleCount := t.sampleCount
                  engine := .idle
                  status := successStatus s } ∧
            t.sampleCount.toNat = N ∧
            (∀ j, j < N → smpRead t j = some (value raw j)) ∧
            (∀ a, 8 * N ≤ a → t.smpBuf.read a = s.smpBuf.read a))

end Sys2Proof.Machine
end

