-- ==== Sys2Proof/Certificates/Slice0/Obligations.lean ====
section
/-! DEFINITION. The statements for the provers. -/

open Sys2Proof
open Sys2Proof.Machine

/-! ## Encoding -/

/-- R53: decoding the word of a well-formed command gives the command back. -/
def Obligations.DecodeOfEncode : Prop :=
  ∀ i : Instr, i.wellFormed = true → decodeWord (encode i) = .command i

/-- R52, R53: a word that decodes to a command is that command's word, so each word has one meaning. -/
def Obligations.EncodeOfDecode : Prop :=
  ∀ (w : Word) (i : Instr), decodeWord w = .command i → i.wellFormed = true ∧ encode i = w

/-- R53: the word and mask table. Each command is decoded from exactly its word; DECODE.BADWIDTH from exactly the words
that match 0x00000001 under the mask 0xFFFF00FF and are none of the five DECODE.Ix words, with WIDTH in bits [15:8];
every other word is ILLEGAL_COMMAND. -/
def Obligations.CommandWordsAreTheTable : Prop :=
  ∀ w : Word,
    (decodeWord w = .command .decodeI8 ↔ w = 0x00000101) ∧
    (decodeWord w = .command .decodeI16 ↔ w = 0x00000201) ∧
    (decodeWord w = .command .decodeI24 ↔ w = 0x00000301) ∧
    (decodeWord w = .command .decodeI32 ↔ w = 0x00000401) ∧
    (decodeWord w = .command .decodeI64 ↔ w = 0x00000801) ∧
    (decodeWord w = .command .normalize ↔ w = 0x00000002) ∧
    (decodeWord w = .command (.decodeBadWidth (w.extractLsb' 8 8)) ↔
      w &&& 0xFFFF00FF = 0x00000001 ∧ w ≠ 0x00000101 ∧ w ≠ 0x00000201 ∧ w ≠ 0x00000301 ∧ w ≠ 0x00000401 ∧
        w ≠ 0x00000801) ∧
    ((∃ why, decodeWord w = .illegal why) ↔
      w ≠ 0x00000002 ∧ w &&& 0xFFFF00FF ≠ 0x00000001)

/-- The words of R53 and of section 2.4 of 95_test_vectors.md, written out, decode to their commands. -/
def Obligations.WrittenOutWordsDecode : Prop :=
  decodeTableWord 32 0x00000101 = some .decodeI8 ∧ decodeTableWord 32 0x00000301 = some .decodeI24 ∧
    decodeTableWord 32 0x00000601 = some (.decodeBadWidth 6) ∧ decodeTableWord 32 0x00000002 = some .normalize ∧
    decodeTableWord 32 0x00000102 = none ∧ decodeTableWord 32 0x00010201 = none

/-- R52, R83, R84: a word that is no well-formed command's word ends with ILLEGAL_COMMAND and changes nothing but STATUS
(and the engine, which is Idle again). -/
def Obligations.OtherWordsAreIllegalCommand : Prop :=
  ∀ (w : Word) (s : State), (¬ ∃ i : Instr, i.wellFormed = true ∧ encode i = w) →
    runCommand w s = .next (errorState .illegalCommand .none s)

/-! ## A step runs the decoded command -/

/-- R32, R101: with a command latched and the engine's turn next, a step is exec of that command, at the state with the
turn taken off the script; the same when the script is exhausted, when POLL has no spins left, and at the state that
withFetchWord makes, which is the accepted one (R17). -/
def Obligations.StepRunsDecodedCommand : Prop :=
  ∀ (s : State) (cmd : Word) (i : Instr), s.engine = .busy cmd → decodeWord cmd = .command i →
    (∀ rest, s.script = .engine :: rest → step s = exec i (setScript rest s)) ∧
    (s.script = [] → step s = exec i s) ∧
    (∀ rest, s.script = .poll 0 :: rest → step s = exec i s) ∧
    (∀ u : State, step (u.withFetchWord 32 cmd.toNat) = exec i (acceptCommand cmd u))

/-! ## The unpacker -/

/-- R64. -/
def Obligations.DecodeI8Rule : Prop :=
  DecodeRule 1 0x00000101 (fun raw j => (raw j).toInt) .decodeI8

/-- R65. -/
def Obligations.DecodeI16Rule : Prop :=
  DecodeRule 2 0x00000201 (fun raw j => (raw (2 * j + 1) ++ raw (2 * j)).toInt) .decodeI16

/-- R66, in its closed form sint_24(b2 ++ b1 ++ b0). -/
def Obligations.DecodeI24Rule : Prop :=
  DecodeRule 3 0x00000301 (fun raw j => (raw (3 * j + 2) ++ raw (3 * j + 1) ++ raw (3 * j)).toInt) .decodeI24

/-- R67. -/
def Obligations.DecodeI32Rule : Prop :=
  DecodeRule 4 0x00000401
    (fun raw j => (raw (4 * j + 3) ++ raw (4 * j + 2) ++ raw (4 * j + 1) ++ raw (4 * j)).toInt) .decodeI32

/-- R68. -/
def Obligations.DecodeI64Rule : Prop :=
  DecodeRule 8 0x00000801
    (fun raw j =>
      (raw (8 * j + 7) ++ raw (8 * j + 6) ++ raw (8 * j + 5) ++ raw (8 * j + 4) ++ raw (8 * j + 3) ++
        raw (8 * j + 2) ++ raw (8 * j + 1) ++ raw (8 * j)).toInt) .decodeI64

/-- R56 and the corollary that R68 derives: a successful DECODE.I64 stores the input bytes unchanged. -/
def Obligations.DecodeI64KeepsBytes : Prop :=
  ∀ s t : State, exec .decodeI64 s = .next t → t.status.errCode = .ok →
    ∀ a, a < s.frames.toNat * s.channels.toNat * 8 → t.smpBuf.read a = s.inBuf.read a

/-- R71: the words with OP 1, reserved bits 0 and an unsupported WIDTH decode to DECODE.BADWIDTH, which in every state
ends with FORMAT_ERROR / UNSUPPORTED_WIDTH and writes nothing but STATUS. -/
def Obligations.DecodeBadWidthRule : Prop :=
  ∀ w : Word, w &&& 0xFFFF00FF = 0x00000001 → supportedWidth (w.extractLsb' 8 8) = false →
    decodeWord w = .command (.decodeBadWidth (w.extractLsb' 8 8)) ∧
    ∀ s : State, exec (.decodeBadWidth (w.extractLsb' 8 8)) s = .next (errorState .formatError .unsupportedWidth s)

/-- R63, R84, the frame of the five DECODE.Ix: besides STATUS and the engine, only SMP_BUF bytes 0 .. 8N-1 and
SAMPLE_COUNT, and those only with success. -/
def Obligations.DecodeFrame : Prop :=
  ∀ i ∈ [Instr.decodeI8, .decodeI16, .decodeI24, .decodeI32, .decodeI64], ∀ s t : State, exec i s = .next t →
    (t.params = s.params ∧ t.channels = s.channels ∧ t.frames = s.frames ∧ t.inLen = s.inLen ∧ t.maxAbs = s.maxAbs) ∧
    (∀ a, t.inBuf.read a = s.inBuf.read a) ∧ (∀ a, t.nrmBuf.read a = s.nrmBuf.read a) ∧
    (t.script = s.script ∧ t.readLog = s.readLog ∧ t.unseen = s.unseen ∧ t.draws = s.draws) ∧
    (∀ a, 8 * (s.frames.toNat * s.channels.toNat) ≤ a → t.smpBuf.read a = s.smpBuf.read a) ∧
    (t.status.errCode ≠ .ok → t.sampleCount = s.sampleCount ∧ ∀ a, t.smpBuf.read a = s.smpBuf.read a)

/-! ## The normalizer -/

/-- R72 (with R73, R74 and R80): the word; the capacity check before any read; an unwritten byte faults; an empty or
all-zero sequence ends with DIVIDE_BY_ZERO and MAXABS 0; otherwise, with m the largest magnitude, MAXABS is m, entry i of
NRM_BUF is encNorm of k_i = roundT(10000 × s_i, m), STATUS shows success, and nothing else changes. -/
def Obligations.NormalizeRule : Prop :=
  decodeWord 0x00000002 = .command .normalize ∧
    ∀ s : State, s.params.legal →
      let N := s.sampleCount.toNat
      (s.params.sampleCap < N → exec .normalize s = .next (errorState .capacityError .none s)) ∧
      (N ≤ s.params.sampleCap → (∃ a, a < 8 * N ∧ s.smpBuf.read a = none) →
        exec .normalize s = .fault (.unwrittenByte .smpBuf)) ∧
      (N ≤ s.params.sampleCap → ∀ v : Nat → Int, (∀ i, i < N → smpRead s i = some (v i)) →
        (∀ i, i < N → v i = 0) →
        exec .normalize s = .next { errorState .divideByZero .none s with maxAbs := 0 }) ∧
      (N ≤ s.params.sampleCap → ∀ (v : Nat → Int) (m : Nat), (∀ i, i < N → smpRead s i = some (v i)) →
        0 < m → (∀ i, i < N → (v i).natAbs ≤ m) → (∃ i, i < N ∧ (v i).natAbs = m) →
        ∃ t, exec .normalize s = .next t ∧
          t = { s with
                maxAbs := t.maxAbs
                nrmBuf := t.nrmBuf
                engine := .idle
                status := successStatus s } ∧
          t.maxAbs.toNat = m ∧
          (∀ i, i < N →
            t.nrmBuf.readEntry i = some (encNorm (roundT s.params.tieMode (10000 * v i) m) (v i))) ∧
          (∀ a, 8 * N ≤ a → t.nrmBuf.read a = s.nrmBuf.read a))

/-- R44, R72, R84, the frame of NORMALIZE: besides STATUS and the engine, only MAXABS and NRM_BUF bytes 0 .. 8N-1; with
an error no buffer byte, and MAXABS only (to 0) with DIVIDE_BY_ZERO. -/
def Obligations.NormalizeFrame : Prop :=
  ∀ s t : State, exec .normalize s = .next t →
    (t.params = s.params ∧ t.channels = s.channels ∧ t.frames = s.frames ∧ t.inLen = s.inLen ∧
      t.sampleCount = s.sampleCount) ∧
    (∀ a, t.inBuf.read a = s.inBuf.read a) ∧ (∀ a, t.smpBuf.read a = s.smpBuf.read a) ∧
    (t.script = s.script ∧ t.readLog = s.readLog ∧ t.unseen = s.unseen ∧ t.draws = s.draws) ∧
    (∀ a, 8 * s.sampleCount.toNat ≤ a → t.nrmBuf.read a = s.nrmBuf.read a) ∧
    (t.status.errCode ≠ .ok → ∀ a, t.nrmBuf.read a = s.nrmBuf.read a) ∧
    (t.status.errCode ≠ .ok → t.maxAbs = if t.status.errCode = .divideByZero then 0 else s.maxAbs)

/-- R11, R75: roundT gives a nearest integer; at an exact tie EVEN gives the even one and AWAY the one of larger
magnitude; and it is symmetric in the sign. -/
def Obligations.RoundTIsNearest : Prop :=
  ∀ (mode : TieMode) (p : Int) (q : Nat), 0 < q →
    2 * (p - roundT mode p q * q).natAbs ≤ q ∧
    (2 * (p - roundT mode p q * q).natAbs = q →
      (mode = .even → roundT mode p q % 2 = 0) ∧
      (mode = .away → p.natAbs < (roundT mode p q).natAbs * q)) ∧
    roundT mode (-p) q = -roundT mode p q

/-- R75: k_i lies in -10000 .. 10000. -/
def Obligations.RoundTOfSampleInRange : Prop :=
  ∀ (mode : TieMode) (x : Int) (m : Nat), 0 < m → x.natAbs ≤ m → (roundT mode (10000 * x) m).natAbs ≤ 10000

/-- R76, R11, R57: for k ≠ 0 the pattern has the sign of k, is normal, and with biased exponent E and fraction F its value
(2^52 + F) × 2^(E - 1075) is within half a unit in the last place of k / 10000, with an even F at an exact half; k = 0
gives a zero with the sign of the sample. -/
def Obligations.EncNormIsNearestBinary64 : Prop :=
  ∀ k x : Int, k.natAbs ≤ 10000 →
    (k ≠ 0 →
      let f := encNorm k x
      let E := (f.extractLsb' 52 11).toNat
      let F := (f.extractLsb' 0 52).toNat
      f.getLsbD 63 = decide (k < 0) ∧ 1 ≤ E ∧ E ≤ 1023 ∧
        2 * (((2 ^ 52 + F : Nat) : Int) * 10000 - (k.natAbs * 2 ^ (1075 - E) : Nat)).natAbs ≤ 10000 ∧
        (2 * (((2 ^ 52 + F : Nat) : Int) * 10000 - (k.natAbs * 2 ^ (1075 - E) : Nat)).natAbs = 10000 → F % 2 = 0)) ∧
    (k = 0 → encNorm k x = if x < 0 then 0x8000000000000000 else 0)

/-- R77(c): after a successful NORMALIZE every sample whose magnitude is MAXABS has given exactly ±1.0. -/
def Obligations.MaximumNormalizesToOne : Prop :=
  ∀ (s t : State) (i : Nat) (x : Int), exec .normalize s = .next t → t.status.errCode = .ok →
    i < s.sampleCount.toNat → smpRead s i = some x → x.natAbs = t.maxAbs.toNat →
    t.nrmBuf.readEntry i = some (if 0 < x then 0x3FF0000000000000 else 0xBFF0000000000000)

/-- R77(a), R77(d): after a successful NORMALIZE every output lies in [-1, 1] (its magnitude bits are at most those of
1.0), has the sign bit of its sample, and is +0.0 for a zero sample. -/
def Obligations.NormalizedRangeAndSign : Prop :=
  ∀ (s t : State) (i : Nat) (x : Int), exec .normalize s = .next t → t.status.errCode = .ok →
    i < s.sampleCount.toNat → smpRead s i = some x →
    ∃ f : Entry, t.nrmBuf.readEntry i = some f ∧ f.toNat % 2 ^ 63 ≤ 0x3FF0000000000000 ∧
      f.getLsbD 63 = decide (x < 0) ∧ (x = 0 → f = 0)

/-- R77(e): multiplying every sample by the same positive integer leaves every output, and the result, unchanged. -/
def Obligations.NormalizeIsScaleInvariant : Prop :=
  ∀ (s s' t t' : State) (c : Nat) (v : Nat → Int), 0 < c → s'.params = s.params → s'.sampleCount = s.sampleCount →
    (∀ i, i < s.sampleCount.toNat → smpRead s i = some (v i) ∧ smpRead s' i = some (c * v i)) →
    exec .normalize s = .next t → exec .normalize s' = .next t' →
    t'.status.errCode = t.status.errCode ∧
    (t.status.errCode = .ok → ∀ i, i < s.sampleCount.toNat → t'.nrmBuf.readEntry i = t.nrmBuf.readEntry i)

/-- R77(g): nothing that NORMALIZE writes depends on anything but the parameters, SAMPLE_COUNT and the samples
0 .. N-1. -/
def Obligations.NormalizeIgnoresOtherState : Prop :=
  ∀ s s' : State, s'.params = s.params → s'.sampleCount = s.sampleCount →
    (∀ i, i < s.sampleCount.toNat → smpRead s' i = smpRead s i) →
    ∀ t, exec .normalize s = .next t →
      ∃ t', exec .normalize s' = .next t' ∧ t'.status.errCode = t.status.errCode ∧
        (t.status.errCode = .ok → t'.maxAbs = t.maxAbs ∧
          ∀ i, i < s.sampleCount.toNat → t'.nrmBuf.readEntry i = t.nrmBuf.readEntry i)

/-! ## Completion and errors -/

/-- R19 to R24, R32, R44: what every completion leaves: an Idle engine that accepts the next CTRL write, BUSY 0, DONE 1,
a sub-cause exactly for FORMAT_ERROR, ERR_SEEN set by an error and else kept; and the engine writes none of CHANNELS,
FRAMES, IN_LEN, IN_BUF and the parameters, nor the model's account of the outside. -/
def Obligations.CompletionReportsResult : Prop :=
  ∀ (w : Word) (s t : State), runCommand w s = .next t →
    t.engine = .idle ∧ accepting t = true ∧ t.status.busy = false ∧ t.status.done = true ∧
    (t.status.fmtCause ≠ .none ↔ t.status.errCode = .formatError) ∧
    t.status.errSeen = (s.status.errSeen || t.status.errCode != .ok) ∧
    (t.params = s.params ∧ t.channels = s.channels ∧ t.frames = s.frames ∧ t.inLen = s.inLen ∧ t.inBuf = s.inBuf) ∧
    (t.script = s.script ∧ t.readLog = s.readLog ∧ t.unseen = s.unseen ∧ t.draws = s.draws)

/-- R85: a command reports the first error that applies, in the order of the rule, and an unwritten byte matters only when
every check passes. -/
def Obligations.FirstErrorIsReported : Prop :=
  ∀ (w : Word) (s : State),
    (∀ t, runCommand w s = .next t → (t.status.errCode, t.status.fmtCause) = firstError w s) ∧
    (∀ r, runCommand w s = .fault r → firstError w s = (.ok, .none))

/-- R84: a command that ends with an error leaves the state as it was but for STATUS, the engine, and MAXABS = 0 with
DIVIDE_BY_ZERO; FMT_CAUSE is 0 when the error has no sub-cause. -/
def Obligations.ErrorsArePrecise : Prop :=
  ∀ (w : Word) (s t : State), runCommand w s = .next t → t.status.errCode ≠ .ok →
    t = { errorState t.status.errCode t.status.fmtCause s with
          maxAbs := if t.status.errCode = .divideByZero then 0 else s.maxAbs } ∧
    (t.status.errCode ≠ .formatError → t.status.fmtCause = .none)

/-- R43: running the same command again on what it left leaves the same state. -/
def Obligations.CommandsAreRepeatable : Prop :=
  ∀ (w : Word) (s t : State), runCommand w s = .next t → runCommand w t = .next t

/-- R20: DONE is cleared by an accepted CTRL write, set in the step that completes the command and clears BUSY, cleared by
nothing but a new command or a reset, and a STATUS read leaves it and every other field of the block as they were; what it
changes is the model's account of the outside (notes/assumptions/3.md, 4.md, 5.md). -/
def Obligations.DoneFollowsTheCommand : Prop :=
  (∀ (s : State) (w : Word) (rest : List Event), s.script = .host (.write 0x00000000 4 w) :: rest → s.engine = .idle →
    ∃ t, step s = .next t ∧ t.engine = .busy w ∧ t.status.busy = true ∧ t.status.done = false) ∧
  (∀ (s t : State) (cmd : Word), s.engine = .busy cmd → step s = .next t → t.engine = .idle →
    (∀ rest, s.script ≠ .reset :: rest) → t.status.done = true ∧ t.status.busy = false) ∧
  (∀ s t : State, step s = .next t → s.status.done = true → t.status.done = false →
    (∃ rest, s.script = .reset :: rest) ∨ (s.engine = .idle ∧ ∃ w, t.engine = .busy w)) ∧
  (∀ (s : State) (rest : List Event), s.script = .host (.read 0x00000004 4) :: rest →
    ∃ u, step s = .next { s with script := rest, readLog := s.status.word :: s.readLog, unseen := u })

/-- R23: ERR_SEEN is set at a completion whose ERR_CODE is not 0, and nothing but a reset clears it. -/
def Obligations.ErrSeenIsSticky : Prop :=
  ∀ s t : State, step s = .next t → (∀ rest, s.script ≠ .reset :: rest) →
    (s.status.errSeen = true → t.status.errSeen = true) ∧
    (∀ cmd, s.engine = .busy cmd → t.engine = .idle → t.status.errCode ≠ .ok → t.status.errSeen = true) ∧
    (s.status.errSeen = false → t.status.errSeen = true →
      (∃ cmd, s.engine = .busy cmd) ∧ t.engine = .idle ∧ t.status.errCode ≠ .ok)

/-- R18: the fields of the STATUS word, its reserved bits 0. -/
def Obligations.StatusWordFields : Prop :=
  ∀ st : Status,
    st.word.getLsbD 0 = st.busy ∧ st.word.getLsbD 1 = st.done ∧ st.word.extractLsb' 2 2 = 0 ∧
    st.word.extractLsb' 4 4 = st.errCode.code ∧ st.word.extractLsb' 8 4 = st.fmtCause.code ∧
    st.word.extractLsb' 12 4 = 0 ∧ st.word.getLsbD 16 = st.errSeen ∧ st.word.extractLsb' 17 15 = 0

/-- R101: a Busy engine whose turn it is completes; the only thing that can stop it is an unwritten byte (R70, R80). -/
def Obligations.BusyEngineCompletes : Prop :=
  ∀ (s : State) (cmd : Word), s.engine = .busy cmd → (s.script = [] ∨ ∃ rest, s.script = .engine :: rest) →
    (∃ t, step s = .next t ∧ t.engine = .idle ∧ t.script = s.script.tail ∧ t.status.done = true) ∨
    (∃ b, step s = .fault (.unwrittenByte b))

/-- R59, R101: POLL ends. With `spins` reads left before a Busy engine completes, after spins + 2 steps the host has read
a STATUS that shows DONE, unless the command met an unwritten byte. That POLL is one event with its spins is the model's
choice (notes/assumptions/2.md). -/
def Obligations.PollEnds : Prop :=
  ∀ (spins : Nat) (s : State) (cmd : Word) (rest : List Event), s.engine = .busy cmd →
    s.script = .poll spins :: rest →
    (∃ b, stepN (spins + 2) s = .fault (.unwrittenByte b)) ∨
    (∃ t : State, stepN (spins + 2) s = .next t ∧ t.script = rest ∧ t.engine = .idle ∧
      t.unseen = Unseen.none ∧ t.status.showsDone = true ∧ t.readLog.head? = some t.status.word ∧
      t.readLog.length = s.readLog.length + spins + 1)

/-- R59: POLL while the engine is Idle reads STATUS once a step. The read ends the loop if it shows DONE, and every output
is seen; else the loop goes on, with one more value read. That POLL is one event is the model's choice
(notes/assumptions/2.md). -/
def Obligations.PollWhileIdle : Prop :=
  ∀ (spins : Nat) (s : State) (rest : List Event), s.engine = .idle → s.script = .poll spins :: rest →
    (s.status.showsDone = true →
      step s = .next { s with script := rest, readLog := s.status.word :: s.readLog, unseen := Unseen.none }) ∧
    (s.status.showsDone = false → step s = .next { s with readLog := s.status.word :: s.readLog })

/-- R101, R32: the result of a command does not depend on LATENCY. However many times POLL reads STATUS first, what it ends
with is what the command makes of the state it was accepted in, but for the script, the values read and the outputs now
seen. That LATENCY is a count of reads is the model's choice (notes/assumptions/2.md). -/
def Obligations.LatencyChangesNoResult : Prop :=
  ∀ (spins : Nat) (s u : State) (cmd : Word) (rest : List Event), s.engine = .busy cmd →
    s.script = .poll spins :: rest → runCommand cmd s = .next u →
    ∃ log, stepN (spins + 2) s = .next { u with script := rest, readLog := log, unseen := Unseen.none }

/-- R100, with the model's choice that an ended run stays as it is (notes/assumptions/9.md): a step changes nothing exactly
when the host has taken its last step and the engine is Idle. -/
def Obligations.RunHasEndedIffStepChangesNothing : Prop :=
  ∀ s : State, s.final ↔ step s = .next s

/-! ## Host registers -/

/-- R17: a CTRL write with the engine Idle latches the word, makes the engine Busy, BUSY 1 and DONE 0, and keeps the rest
of STATUS; while Busy it is a violation (R98); a read of CTRL returns 0. That the command's outputs become unseen is the
model's account of R97 (notes/assumptions/5.md). -/
def Obligations.CtrlWriteStartsCommand : Prop :=
  ∀ (s : State) (rest : List Event),
    (∀ w, s.script = .host (.write 0x00000000 4 w) :: rest → s.engine = .idle →
      step s = .next { s with
        script := rest
        engine := .busy w
        status := { s.status with busy := true, done := false }
        unseen := s.unseen.accept w }) ∧
    (∀ w cmd, s.script = .host (.write 0x00000000 4 w) :: rest → s.engine = .busy cmd →
      step s = .fault .hostWriteWhileBusy) ∧
    (s.script = .host (.read 0x00000000 4) :: rest →
      step s = .next { s with script := rest, readLog := 0 :: s.readLog })

/-- R41: with the engine Idle, CTRL accepts a write, CHANNELS, FRAMES, IN_LEN and SAMPLE_COUNT take any 32-bit value and
nothing else changes, and writes to the five read-only registers are ignored. Whether
SAMPLE_COUNT is defined to the host is the model's account beside the block's state (notes/assumptions/5.md). -/
def Obligations.RegisterWriteRights : Prop :=
  ∀ (s : State) (v : Word) (rest : List Event), s.engine = .idle →
    (s.script = .host (.write 0x00 4 v) :: rest → ∃ t, step s = .next t ∧ t.engine = .busy v) ∧
    (s.script = .host (.write 0x08 4 v) :: rest → step s = .next { s with script := rest, channels := v }) ∧
    (s.script = .host (.write 0x0C 4 v) :: rest → step s = .next { s with script := rest, frames := v }) ∧
    (s.script = .host (.write 0x10 4 v) :: rest → step s = .next { s with script := rest, inLen := v }) ∧
    (s.script = .host (.write 0x14 4 v) :: rest →
      ∃ c, step s = .next { s with script := rest, sampleCount := v, unseen := { s.unseen with count := c } }) ∧
    (∀ off ∈ [(0x04 : Word), 0x18, 0x1C, 0x20, 0x24], s.script = .host (.write off 4 v) :: rest →
      step s = .next { s with script := rest })

/-- R16 to R31: what a host read of each register returns, with the engine Idle or Busy. SAMPLE_COUNT and MAXABS are read
here while Idle, once they are defined to the host (R97, notes/assumptions/5.md); UnseenOutputReads and ReadsWhileBusy say
what they give before. The state is otherwise as it was, but for what StatusReadAcquires says of a STATUS read. -/
def Obligations.RegisterReadValues : Prop :=
  ∀ (s : State) (rest : List Event),
    ∀ x ∈ [((0x00 : Word), (0 : Word)), (0x04, s.status.word), (0x08, s.channels), (0x0C, s.frames), (0x10, s.inLen),
        (0x14, s.sampleCount), (0x18, s.maxAbs.extractLsb' 0 32), (0x1C, s.maxAbs.extractLsb' 32 32),
        (0x20, BitVec.ofNat 32 s.params.inCap), (0x24, BitVec.ofNat 32 s.params.sampleCap)],
      (x.1 = 0x14 → s.engine = .idle ∧ s.unseen.count = false) →
      (x.1 ∈ [(0x18 : Word), 0x1C] → s.engine = .idle ∧ s.unseen.nrm = false) →
      s.script = .host (.read x.1 4) :: rest →
      ∃ u, step s = .next { s with script := rest, readLog := x.2 :: s.readLog, unseen := u } ∧
        (x.1 ≠ 0x04 → u = s.unseen)

/-- R30: IN_CAP_REG and SAMPLE_CAP_REG read as the parameters in every state, writes to them are ignored, and no step
changes the parameters, a reset included. -/
def Obligations.CapacitiesAreConstant : Prop :=
  (∀ s t : State, step s = .next t → t.params = s.params) ∧
  (∀ (s : State) (rest : List Event),
    (s.script = .host (.read 0x20 4) :: rest →
      step s = .next { s with script := rest, readLog := BitVec.ofNat 32 s.params.inCap :: s.readLog }) ∧
    (s.script = .host (.read 0x24 4) :: rest →
      step s = .next { s with script := rest, readLog := BitVec.ofNat 32 s.params.sampleCap :: s.readLog }) ∧
    (∀ v, s.script = .host (.write 0x20 4 v) :: rest ∨ s.script = .host (.write 0x24 4 v) :: rest →
      step s = .next { s with script := rest }))

/-! ## Host buffer accesses -/

/-- R36, R27: entry i of a buffer is v exactly when its bytes 8i + j hold bits [8j+7 : 8j] of v. -/
def Obligations.EntriesAreLittleEndian : Prop :=
  ∀ (m : Memory) (i : Nat) (v : Entry),
    m.readEntry i = some v ↔ ∀ j, j < 8 → m.read (8 * i + j) = some (v.extractLsb' (8 * j) 8)

/-- R42, R37: a host write of n bytes of v at byte a of IN_BUF or SMP_BUF with the engine Idle sets byte a + j to bits
[8j+7 : 8j] of v; every other byte and every other field is as before. Those bytes are defined to the host from then on (R96),
in the model's account (notes/assumptions/5.md). That bits of v above the size are ignored is the model's reading
(notes/assumptions/11.md). -/
def Obligations.BufferWritesAreLittleEndian : Prop :=
  ∀ (s : State) (b : Buffer) (a n : Nat) (v : Word) (rest : List Event), s.params.legal → b ≠ .nrmBuf →
    goodAccess s.params b a n → s.engine = .idle → s.script = .host (.write (busAddress b a) n v) :: rest →
    ∃ (m : Memory) (u : Unseen), step s = .next (setBuffer b m { s with script := rest, unseen := u }) ∧
      (∀ j, j < n → m.read (a + j) = some (v.extractLsb' (8 * j) 8)) ∧
      (∀ x, x < a ∨ a + n ≤ x → m.read x = (bufferOf b s).read x) ∧
      (∀ c x, u.hides c x = if c = b ∧ a ≤ x ∧ x < a + n then false else s.unseen.hides c x) ∧
      u.count = s.unseen.count ∧ u.smp = s.unseen.smp ∧ u.nrm = s.unseen.nrm

/-- R42, R103, R37: a host read of n bytes at byte a of a buffer, of IN_BUF at any time and of SMP_BUF or NRM_BUF with the
engine Idle: an unwritten byte faults, whatever the host has seen; written bytes that are defined to the host (R97,
notes/assumptions/5.md) give the value whose bits [8j+7 : 8j] are byte a + j and whose higher bits are 0. -/
def Obligations.BufferReadsAreLittleEndian : Prop :=
  ∀ (s : State) (b : Buffer) (a n : Nat) (rest : List Event), s.params.legal → goodAccess s.params b a n →
    (b = .inBuf ∨ s.engine = .idle) → s.script = .host (.read (busAddress b a) n) :: rest →
    (∀ raw : Nat → Byte, (∀ j, j < n → (bufferOf b s).read (a + j) = some (raw j)) →
      (∀ j, j < n → s.unseen.hides b (a + j) = false) →
      ∃ v : Word, step s = .next { s with script := rest, readLog := v :: s.readLog } ∧
        (∀ j, j < n → v.extractLsb' (8 * j) 8 = raw j) ∧ v.toNat < 2 ^ (8 * n)) ∧
    ((∃ j, j < n ∧ (bufferOf b s).read (a + j) = none) → step s = .fault (.unwrittenByte b))

/-- R96: a host write is visible to the very next host access, whatever command's completion the host has not seen: what it
writes to SAMPLE_COUNT, or at any byte of IN_BUF or SMP_BUF, the next read of the same register or bytes returns. Two clauses
are the model's reading: that an own write to an unseen SAMPLE_COUNT or SMP_BUF byte is returned, and not the any value of
R46(c) (notes/assumptions/5.md); and that a narrow write takes the low n bytes of v (notes/assumptions/11.md). -/
def Obligations.HostWritesAreVisible : Prop :=
  ∀ (s : State) (v : Word) (rest : List Event), s.params.legal → s.engine = .idle →
    (s.script = .host (.write 0x14 4 v) :: .host (.read 0x14 4) :: rest →
      ∃ t : State, stepN 2 s = .next t ∧ t.script = rest ∧ t.readLog = v :: s.readLog) ∧
    (∀ b a n, b ≠ .nrmBuf → goodAccess s.params b a n →
      s.script = .host (.write (busAddress b a) n v) :: .host (.read (busAddress b a) n) :: rest →
      ∃ t : State, stepN 2 s = .next t ∧ t.script = rest ∧
        t.readLog = BitVec.ofNat 32 (v.toNat % 2 ^ (8 * n)) :: s.readLog)

/-- R40: an access beyond a buffer's capacity, at a register offset that is not listed, outside every window, or a write
to the NRM window is a bus error. That an access which only ends beyond the capacity is one too is the model's reading
(notes/assumptions/8.md). -/
def Obligations.BusErrors : Prop :=
  ∀ (s : State) (x : Transaction) (rest : List Event), s.params.legal → s.script = .host x :: rest →
    ((∃ b a, a < 0x10000000 ∧ x.address = busAddress b a ∧ capacityOf s.params b < a + x.bytes) ∨
      (x.address.toNat < 0x100 ∧
        x.address ∉ [(0x00 : Word), 0x04, 0x08, 0x0C, 0x10, 0x14, 0x18, 0x1C, 0x20, 0x24]) ∨
      (0x100 ≤ x.address.toNat ∧ x.address.toNat < 0x10000000) ∨ 0x40000000 ≤ x.address.toNat ∨
      (0x30000000 ≤ x.address.toNat ∧ x.address.toNat < 0x40000000 ∧ ∃ addr n v, x = .write addr n v)) →
    ∃ k, step s = .fault (.busError k)

/-- R39: an access of another width or alignment than the window takes is a bus error. -/
def Obligations.WidthAndAlignmentErrors : Prop :=
  ∀ (s : State) (x : Transaction) (rest : List Event), s.script = .host x :: rest →
    ((x.address.toNat < 0x100 ∧ (x.bytes ≠ 4 ∨ x.address.toNat % 4 ≠ 0)) ∨
      (0x10000000 ≤ x.address.toNat ∧
        ((x.bytes ≠ 1 ∧ x.bytes ≠ 2 ∧ x.bytes ≠ 4) ∨ x.address.toNat % x.bytes ≠ 0))) →
    ∃ k, step s = .fault (.busError k)

/-! ## Accesses while the engine is Busy -/

/-- R98: while the engine is Busy, host writes to CTRL, CHANNELS, FRAMES, IN_LEN, SAMPLE_COUNT, IN_BUF and SMP_BUF fault;
writes to read-only registers are still ignored; a write in the NRM window is a bus error at all times. -/
def Obligations.WritesWhileBusy : Prop :=
  ∀ (s : State) (cmd : Word) (rest : List Event), s.params.legal → s.engine = .busy cmd →
    (∀ off ∈ [(0x00 : Word), 0x08, 0x0C, 0x10, 0x14], ∀ v, s.script = .host (.write off 4 v) :: rest →
      step s = .fault .hostWriteWhileBusy) ∧
    (∀ b a n v, b ≠ .nrmBuf → goodAccess s.params b a n → s.script = .host (.write (busAddress b a) n v) :: rest →
      step s = .fault .hostWriteWhileBusy) ∧
    (∀ off ∈ [(0x04 : Word), 0x18, 0x1C, 0x20, 0x24], ∀ v, s.script = .host (.write off 4 v) :: rest →
      step s = .next { s with script := rest }) ∧
    (∀ u : State, ∀ a n v, a < 0x10000000 → u.script = .host (.write (busAddress .nrmBuf a) n v) :: rest →
      ∃ k, step u = .fault (.busError k))

/-- R99: while the engine is Busy, reads of STATUS, CHANNELS, FRAMES, IN_LEN, the capacities and IN_BUF return their
values; reads of SAMPLE_COUNT, MAXABS_LO, MAXABS_HI, SMP_BUF and NRM_BUF return some value, of which nothing is said, and
change nothing else of the block. The draw is the model's (notes/assumptions/6.md), and so is that an unwritten byte is drawn
too and does not fault (notes/assumptions/7.md). -/
def Obligations.ReadsWhileBusy : Prop :=
  ∀ (s : State) (cmd : Word) (rest : List Event), s.params.legal → s.engine = .busy cmd →
    (s.script = .host (.read 0x04 4) :: rest →
      ∃ u, step s = .next { s with script := rest, readLog := s.status.word :: s.readLog, unseen := u }) ∧
    (∀ x ∈ [((0x08 : Word), s.channels), (0x0C, s.frames), (0x10, s.inLen),
        (0x20, BitVec.ofNat 32 s.params.inCap), (0x24, BitVec.ofNat 32 s.params.sampleCap)],
      s.script = .host (.read x.1 4) :: rest →
      step s = .next { s with script := rest, readLog := x.2 :: s.readLog }) ∧
    (∀ a n, goodAccess s.params .inBuf a n → s.script = .host (.read (busAddress .inBuf a) n) :: rest →
      ∀ bs, s.inBuf.readBytes a n = some bs →
      step s = .next { s with script := rest, readLog := BitVec.ofNat 32 (ofBytes bs) :: s.readLog }) ∧
    (∀ off ∈ [(0x14 : Word), 0x18, 0x1C], s.script = .host (.read off 4) :: rest →
      ∃ v, step s = .next { s with script := rest, readLog := v :: s.readLog, draws := s.draws + 1 }) ∧
    (∀ b a n, b ≠ .inBuf → goodAccess s.params b a n → s.script = .host (.read (busAddress b a) n) :: rest →
      ∃ v, step s = .next { s with script := rest, readLog := v :: s.readLog, draws := s.draws + 1 })

/-! ## What the host has seen -/

/-- R46(b), R47: after a STATUS read that shows BUSY = 0 and DONE = 1 every output is defined to the host; any other STATUS
read leaves what is defined as it was. The account is the model's (notes/assumptions/5.md). -/
def Obligations.StatusReadAcquires : Prop :=
  ∀ (s : State) (rest : List Event), s.script = .host (.read 0x04 4) :: rest →
    ∃ t, step s = .next t ∧
      (s.status.busy = false → s.status.done = true → t.unseen = Unseen.none ∧
        (∀ b a, t.unseen.hides b a = false) ∧ ∀ r, t.unseen.hidesRegister r = false) ∧
      (s.status.busy = true ∨ s.status.done = false → t.unseen = s.unseen)

/-- R97, command by command: an accepted DECODE.Ix makes SAMPLE_COUNT and every byte of SMP_BUF unseen, an accepted NORMALIZE
makes MAXABS and every byte of NRM_BUF unseen, neither touches what is seen of the other's outputs, and a word that is
neither makes nothing unseen (R71, R84; notes/assumptions/5.md). -/
def Obligations.AcceptanceHidesItsOutputs : Prop :=
  ∀ (s : State) (w : Word) (rest : List Event), s.script = .host (.write 0x00 4 w) :: rest → s.engine = .idle →
    ∃ t, step s = .next t ∧
      (w ∈ [(0x00000101 : Word), 0x00000201, 0x00000301, 0x00000401, 0x00000801] →
        t.unseen.count = true ∧ (∀ a, t.unseen.hides .smpBuf a = true) ∧ t.unseen.nrm = s.unseen.nrm) ∧
      (w = 0x00000002 →
        t.unseen.nrm = true ∧ (∀ a, t.unseen.hides .nrmBuf a = true) ∧ t.unseen.count = s.unseen.count ∧
          ∀ a, t.unseen.hides .smpBuf a = s.unseen.hides .smpBuf a) ∧
      (w ∉ [(0x00000101 : Word), 0x00000201, 0x00000301, 0x00000401, 0x00000801, 0x00000002] → t.unseen = s.unseen)

/-- R46(c), R97, with the engine Idle: a read of SAMPLE_COUNT or MAXABS that is not defined to the host returns some value;
a read of SMP_BUF or NRM_BUF bytes that are written and not all defined to it returns some value in which the defined bytes
are their own; and nothing else of the block changes. The account and the draw are the model's (notes/assumptions/5.md,
6.md), and so is that every such read counts a draw of its own (notes/assumptions/13.md). -/
def Obligations.UnseenOutputReads : Prop :=
  ∀ (s : State) (rest : List Event), s.params.legal → s.engine = .idle →
    (s.unseen.count = true → s.script = .host (.read 0x14 4) :: rest →
      ∃ v, step s = .next { s with script := rest, readLog := v :: s.readLog, draws := s.draws + 1 }) ∧
    (s.unseen.nrm = true → ∀ off ∈ [(0x18 : Word), 0x1C], s.script = .host (.read off 4) :: rest →
      ∃ v, step s = .next { s with script := rest, readLog := v :: s.readLog, draws := s.draws + 1 }) ∧
    (∀ b a n, goodAccess s.params b a n → s.script = .host (.read (busAddress b a) n) :: rest →
      ∀ raw : Nat → Byte, (∀ j, j < n → (bufferOf b s).read (a + j) = some (raw j)) →
      (∃ j, j < n ∧ s.unseen.hides b (a + j) = true) →
      ∃ v : Word, step s = .next { s with script := rest, readLog := v :: s.readLog, draws := s.draws + 1 } ∧
        v.toNat < 2 ^ (8 * n) ∧
        ∀ j, j < n → s.unseen.hides b (a + j) = false → v.extractLsb' (8 * j) 8 = raw j)

/-- R46(c), R97: an output that is not defined to the host becomes so only by a read of STATUS, by POLL or not, that shows
BUSY = 0 and DONE = 1, by the host's own write to it (R96), or by a reset. The account is the model's
(notes/assumptions/5.md). -/
def Obligations.OnlyDoneOrOwnWriteMakesSeen : Prop :=
  ∀ s t : State, step s = .next t →
    (∃ rest, s.script = .reset :: rest) ∨
    (s.status.busy = false ∧ s.status.done = true ∧
      ((∃ rest, s.script = .host (.read 0x04 4) :: rest) ∨ ∃ spins rest, s.script = .poll spins :: rest)) ∨
    ((s.unseen.nrm = true → t.unseen.nrm = true) ∧
      (s.unseen.count = true → t.unseen.count = true ∨ ∃ v rest, s.script = .host (.write 0x14 4 v) :: rest) ∧
      ∀ b a, s.unseen.hides b a = true → t.unseen.hides b a = true ∨
        ∃ a' n v rest, s.script = .host (.write (busAddress b a') n v) :: rest ∧ a' ≤ a ∧ a < a' + n)

/-! ## Reset -/

/-- R93: the state after reset: every register reads 0 but the capacities, which read as the parameters; the engine is
Idle; every byte of every buffer is unwritten. -/
def Obligations.ResetState : Prop :=
  State.reset.status.word = 0 ∧ State.reset.channels = 0 ∧ State.reset.frames = 0 ∧ State.reset.inLen = 0 ∧
    State.reset.sampleCount = 0 ∧ State.reset.maxAbs = 0 ∧ State.reset.engine = .idle ∧
    registerValue .ctrl State.reset = 0 ∧
    registerValue .inCap State.reset = BitVec.ofNat 32 Config.params.inCap ∧
    registerValue .sampleCap State.reset = BitVec.ofNat 32 Config.params.sampleCap ∧
    ∀ (b : Buffer) (a : Nat), (bufferOf b State.reset).read a = none

/-- R92, R93, R94: the reset input, with the engine Idle or Busy: a command that runs is abandoned, and the state is the reset
state of R93 for the same parameters, whatever it was. What the outside still does, what it has read and the count of draws
are no state of the block and stay (notes/assumptions/3.md, 4.md, 6.md); that no output is unseen after it is the model's
account (notes/assumptions/5.md). -/
def Obligations.ResetFromEveryState : Prop :=
  ∀ (s : State) (rest : List Event), s.script = .reset :: rest →
    step s = .next { State.resetWith s.params with script := rest, readLog := s.readLog, draws := s.draws }

/-! ## Invariants -/

/-- R93 with the invariant: it holds at reset. -/
def Obligations.InvariantAtReset : Prop := State.reset.Inv

/-- R6, R18, R19, R22, R23, R27, R29, and the model's account of R96 and R97 (notes/assumptions/5.md): every step keeps the
invariant. -/
def Obligations.StepKeepsInvariant : Prop :=
  ∀ s t : State, s.Inv → step s = .next t → t.Inv

/-- R27: no step but a reset makes a written byte unwritten. -/
def Obligations.WrittenBytesStayWritten : Prop :=
  ∀ s t : State, step s = .next t → (∀ rest, s.script ≠ .reset :: rest) →
    ∀ (b : Buffer) (a : Nat), ((bufferOf b s).read a).isSome = true → ((bufferOf b t).read a).isSome = true
end

