-- ==== Sys2Proof/Laws/Memory.lean ====
section
/-! SUPPORT. Laws of the byte arrays: what a store leaves to be read, that it keeps the canonical form and the capacity,
and the same for 64-bit entries; little-endian values; `collect`. -/

namespace Sys2Proof.Machine

/-! ## collect -/

section Collect

variable {α : Type} {f : Nat → Option α}

/-- All that `collect` can answer: every value in order, or none because one is missing. -/
theorem collect_eq_some_iff {i n : Nat} {l : List α} :
    collect f i n = some l ↔ l.length = n ∧ ∀ (j : Nat) (h : j < l.length), f (i + j) = some l[j] := by
  induction n generalizing i l with
  | zero =>
    constructor
    · intro h
      obtain rfl : [] = l := by simpa [collect] using h
      simp
    · rintro ⟨h, -⟩
      obtain rfl := List.length_eq_zero_iff.1 h
      rfl
  | succ n ih =>
    constructor
    · intro h
      unfold collect at h
      split at h
      · rename_i x xs hx hxs
        obtain rfl := Option.some.inj h
        obtain ⟨hlen, hget⟩ := ih.1 hxs
        refine ⟨by simp [hlen], fun j hj => ?_⟩
        cases j with
        | zero => simpa using hx
        | succ j =>
          have := hget j (by simpa using hj)
          simpa [Nat.add_assoc, Nat.add_comm 1 j] using this
      · cases h
    · rintro ⟨hlen, hget⟩
      cases l with
      | nil => simp at hlen
      | cons x xs =>
        have hx : f i = some x := hget 0 (by simp)
        have hxs : collect f (i + 1) n = some xs := ih.2 ⟨by simpa using hlen, fun j hj => by
          have := hget (j + 1) (by simpa using hj)
          simpa [Nat.add_assoc, Nat.add_comm 1 j] using this⟩
        simp [collect, hx, hxs]

theorem collect_eq_none_iff {i n : Nat} : collect f i n = none ↔ ∃ j, j < n ∧ f (i + j) = none := by
  induction n generalizing i with
  | zero => simp [collect]
  | succ n ih =>
    unfold collect
    constructor
    · intro h
      cases hf : f i with
      | none => exact ⟨0, by omega, by simpa using hf⟩
      | some x =>
        cases hc : collect f (i + 1) n with
        | none =>
          obtain ⟨j, hj, hn⟩ := ih.1 hc
          exact ⟨j + 1, by omega, by rwa [show i + (j + 1) = i + 1 + j by omega]⟩
        | some xs => simp [hf, hc] at h
    · rintro ⟨j, hj, hn⟩
      cases j with
      | zero => simp [show f i = none by simpa using hn]
      | succ j =>
        have : collect f (i + 1) n = none := ih.2 ⟨j, by omega, by rwa [show i + 1 + j = i + (j + 1) by omega]⟩
        simp [this]

theorem collect_length {i n : Nat} {l : List α} (h : collect f i n = some l) : l.length = n :=
  (collect_eq_some_iff.1 h).1

/-- The values of a total function are collected as a list of it. -/
theorem collect_of_forall {g : Nat → α} {i n : Nat} (h : ∀ j, j < n → f (i + j) = some (g (i + j))) :
    collect f i n = some ((List.range n).map (fun j => g (i + j))) :=
  collect_eq_some_iff.2 ⟨by simp, fun j hj => by
    have hj' : j < n := by simpa using hj
    simp [h j hj']⟩

/-- Only the values asked for matter. -/
theorem collect_congr {g : Nat → Option α} {i n : Nat} (h : ∀ j, j < n → f (i + j) = g (i + j)) :
    collect f i n = collect g i n := by
  induction n generalizing i with
  | zero => rfl
  | succ n ih =>
    have h0 : f i = g i := by simpa using h 0 (by omega)
    have ht : collect f (i + 1) n = collect g (i + 1) n := ih fun j hj => by
      have := h (j + 1) (by omega)
      rwa [show i + (j + 1) = i + 1 + j by omega] at this
    unfold collect
    rw [h0, ht]

end Collect

/-! ## Cells and stores -/

theorem lookup_filter_key (p : Nat → Bool) (m : Memory) (x : Nat) :
    List.lookup x (m.filter (fun c => p c.1)) = if p x then List.lookup x m else none := by
  induction m with
  | nil => simp
  | cons c m ih =>
    obtain ⟨k, b⟩ := c
    by_cases hp : p k = true
    · rw [List.filter_cons_of_pos (by simpa using hp), List.lookup_cons, List.lookup_cons, ih]
      by_cases hk : x = k
      · subst hk; simp [hp]
      · simp [show (x == k) = false by simpa using hk]
    · rw [List.filter_cons_of_neg (by simpa using hp), ih, List.lookup_cons]
      by_cases hk : x = k
      · subst hk; simp [hp]
      · simp [show (x == k) = false by simpa using hk]

theorem lookup_cellsFrom (a : Nat) (bs : List Byte) (x : Nat) :
    List.lookup x (cellsFrom a bs) = if a ≤ x then bs[x - a]? else none := by
  induction bs generalizing a with
  | nil => simp [cellsFrom]
  | cons b bs ih =>
    rw [cellsFrom, List.lookup_cons, ih]
    by_cases hx : x = a
    · subst hx; simp
    · have hne : (x == a) = false := by simpa using hx
      rw [hne]
      by_cases hle : a ≤ x
      · obtain ⟨d, rfl⟩ : ∃ d, x = a + 1 + d := ⟨x - (a + 1), by omega⟩
        simp [show a ≤ a + 1 + d by omega, show a + 1 + d - a = d + 1 by omega]
      · simp [hle, show ¬ a + 1 ≤ x by omega]

/-- What a store leaves to be read: the bytes stored, and every other byte as before. -/
theorem Memory.read_store (m : Memory) (a : Nat) (bs : List Byte) (x : Nat) :
    (m.store a bs).read x = if a ≤ x ∧ x < a + bs.length then bs[x - a]? else m.read x := by
  unfold Memory.read Memory.store
  rw [List.lookup_append, List.lookup_append, lookup_filter_key (fun k => decide (k < a)),
    lookup_filter_key (fun k => decide (a + bs.length ≤ k)), lookup_cellsFrom]
  by_cases h1 : x < a
  · simp [h1, show ¬ a ≤ x by omega, show ¬ a + bs.length ≤ x by omega]
  · by_cases h2 : x < a + bs.length
    · have : x - a < bs.length := by omega
      simp [h1, show a ≤ x by omega, h2, show ¬ a + bs.length ≤ x by omega, this]
    · simp [h1, show a ≤ x by omega, h2, show a + bs.length ≤ x by omega,
        List.getElem?_eq_none (show bs.length ≤ x - a by omega)]

theorem Memory.read_store_outside (m : Memory) {a : Nat} {bs : List Byte} {x : Nat}
    (h : x < a ∨ a + bs.length ≤ x) : (m.store a bs).read x = m.read x := by
  rw [m.read_store]; exact if_neg (by omega)

theorem Memory.read_store_inside (m : Memory) {a : Nat} {bs : List Byte} {j : Nat} (h : j < bs.length) :
    (m.store a bs).read (a + j) = some bs[j] := by
  rw [m.read_store, if_pos (by omega), Nat.add_sub_cancel_left, List.getElem?_eq_getElem h]

/-- A store makes no written byte unwritten (R27). -/
theorem Memory.read_store_isSome (m : Memory) (a : Nat) (bs : List Byte) {x : Nat} (h : (m.read x).isSome) :
    ((m.store a bs).read x).isSome := by
  rw [m.read_store]
  split
  · have : x - a < bs.length := by omega
    simp [this]
  · exact h

theorem mem_cellsFrom {a : Nat} {bs : List Byte} {c : Host.Cell} (h : c ∈ cellsFrom a bs) :
    a ≤ c.1 ∧ c.1 < a + bs.length := by
  induction bs generalizing a with
  | nil => simp [cellsFrom] at h
  | cons b bs ih =>
    rw [cellsFrom, List.mem_cons] at h
    rcases h with rfl | h
    · simp
    · have := ih h
      simp only [List.length_cons]; omega

theorem cellsFrom_wf (a : Nat) (bs : List Byte) : Memory.wf (cellsFrom a bs) := by
  induction bs generalizing a with
  | nil => exact List.Pairwise.nil
  | cons b bs ih => exact List.Pairwise.cons (fun c hc => by have := mem_cellsFrom hc; simp; omega) (ih _)

/-- A store keeps the canonical form. -/
theorem Memory.store_wf {m : Memory} (a : Nat) (bs : List Byte) (h : m.wf) : (m.store a bs).wf := by
  unfold Memory.store
  refine List.pairwise_append.2 ⟨List.pairwise_append.2 ⟨h.filter _, cellsFrom_wf a bs, ?_⟩, h.filter _, ?_⟩
  · intro x hx y hy
    have h1 : x.1 < a := by simpa using (List.mem_filter.1 hx).2
    have := mem_cellsFrom hy
    omega
  · intro x hx y hy
    have h2 : a + bs.length ≤ y.1 := by simpa using (List.mem_filter.1 hy).2
    rcases List.mem_append.1 hx with hx | hx
    · have h1 : x.1 < a := by simpa using (List.mem_filter.1 hx).2
      omega
    · have := mem_cellsFrom hx
      omega

/-- A store within the capacity stays within it. -/
theorem Memory.store_within {m : Memory} {cap a : Nat} {bs : List Byte} (h : m.within cap)
    (hb : a + bs.length ≤ cap) : (m.store a bs).within cap := by
  intro x hx
  rcases List.mem_append.1 hx with hx | hx
  · rcases List.mem_append.1 hx with hx | hx
    · exact h x (List.mem_filter.1 hx).1
    · have := mem_cellsFrom hx
      omega
  · exact h x (List.mem_filter.1 hx).1

/-- Storing the same bytes twice leaves what storing them once leaves. -/
theorem Memory.store_store (m : Memory) (a : Nat) (bs : List Byte) : (m.store a bs).store a bs = m.store a bs := by
  have low : (cellsFrom a bs).filter (fun x => x.1 < a) = [] :=
    List.filter_eq_nil_iff.2 fun c hc => by have := mem_cellsFrom hc; simp; omega
  have high : (cellsFrom a bs).filter (fun x => a + bs.length ≤ x.1) = [] :=
    List.filter_eq_nil_iff.2 fun c hc => by have := mem_cellsFrom hc; simp; omega
  have up : (m.filter (fun x => a + bs.length ≤ x.1)).filter (fun x => x.1 < a) = [] :=
    List.filter_eq_nil_iff.2 fun c hc => by
      have : a + bs.length ≤ c.1 := by simpa using (List.mem_filter.1 hc).2
      simp; omega
  have down : (m.filter (fun x => x.1 < a)).filter (fun x => a + bs.length ≤ x.1) = [] :=
    List.filter_eq_nil_iff.2 fun c hc => by
      have : c.1 < a := by simpa using (List.mem_filter.1 hc).2
      simp; omega
  unfold Memory.store
  simp only [List.filter_append, low, high, up, down, List.append_nil, List.nil_append]
  simp [List.filter_filter]

/-! ## Little-endian values -/

@[simp] theorem toBytes_length (n v : Nat) : (toBytes n v).length = n := by
  induction n generalizing v with
  | zero => rfl
  | succ n ih => simp [toBytes, ih]

theorem ofBytes_lt (bs : List Byte) : ofBytes bs < 256 ^ bs.length := by
  induction bs with
  | nil => simp [ofBytes]
  | cons b bs ih =>
    have hb : b.toNat < 256 := b.isLt
    simp only [ofBytes, List.length_cons, Nat.pow_succ]
    omega

theorem ofBytes_toBytes (n v : Nat) : ofBytes (toBytes n v) = v % 256 ^ n := by
  induction n generalizing v with
  | zero => simp [toBytes, ofBytes, Nat.mod_one]
  | succ n ih =>
    have h : v % 256 ^ (n + 1) = v % 256 + 256 * (v / 256 % 256 ^ n) := by
      rw [Nat.pow_succ, Nat.mul_comm (256 ^ n) 256, Nat.mod_mul]
    rw [h, ← ih]
    simp [toBytes, ofBytes]

/-- Byte j of a little-endian value (R36). -/
theorem toBytes_getElem (n v j : Nat) (h : j < (toBytes n v).length) :
    (toBytes n v)[j] = BitVec.ofNat 8 (v / 256 ^ j) := by
  induction n generalizing v j with
  | zero => simp at h
  | succ n ih =>
    cases j with
    | zero => simp [toBytes]
    | succ j =>
      simp only [toBytes, List.getElem_cons_succ]
      rw [ih, Nat.div_div_eq_div_mul, Nat.pow_succ, Nat.mul_comm 256]

/-! ## Byte reads and entries -/

/-- The bytes a read finds, as a list, when each of them is written. -/
theorem Memory.readBytes_of_forall {m : Memory} {a n : Nat} {raw : Nat → Byte}
    (h : ∀ j, j < n → m.read (a + j) = some (raw (a + j))) :
    m.readBytes a n = some ((List.range n).map (fun j => raw (a + j))) := collect_of_forall h

theorem Memory.readBytes_eq_none_iff {m : Memory} {a n : Nat} :
    m.readBytes a n = none ↔ ∃ j, j < n ∧ m.read (a + j) = none := collect_eq_none_iff

theorem Memory.readBytes_length {m : Memory} {a n : Nat} {bs : List Byte} (h : m.readBytes a n = some bs) :
    bs.length = n := collect_length h

theorem Memory.readBytes_congr {m m' : Memory} {a n : Nat} (h : ∀ j, j < n → m.read (a + j) = m'.read (a + j)) :
    m.readBytes a n = m'.readBytes a n := collect_congr h

/-- A buffer in canonical form lists a byte exactly when it reads as that byte. -/
theorem Memory.mem_iff_read {m : Memory} (h : m.wf) (x : Host.Cell) : x ∈ m ↔ m.read x.1 = some x.2 := by
  unfold Memory.read
  induction m with
  | nil => simp
  | cons c m ih =>
    obtain ⟨h1, h2⟩ := List.pairwise_cons.1 h
    rw [List.mem_cons, List.lookup_cons, ih h2]
    by_cases hx : x.1 = c.1
    · have : (x.1 == c.1) = true := by simpa using hx
      rw [this]
      constructor
      · rintro (rfl | hr)
        · rfl
        · exact absurd (h1 x ((ih h2).2 hr)) (by omega)
      · intro hc
        exact .inl (Prod.ext hx (Option.some.inj hc).symm)
    · have : (x.1 == c.1) = false := by simpa using hx
      rw [this]
      exact or_iff_right fun hc => hx (by rw [hc])

/-- Reading back exactly what was stored. -/
theorem Memory.readBytes_store (m : Memory) (a : Nat) (bs : List Byte) :
    (m.store a bs).readBytes a bs.length = some bs :=
  collect_eq_some_iff.2 ⟨rfl, fun _ h => m.read_store_inside h⟩

/-- An entry is unwritten as soon as one of its eight bytes is. -/
theorem Memory.readEntry_eq_none_iff {m : Memory} {i : Nat} :
    m.readEntry i = none ↔ ∃ j, j < 8 ∧ m.read (8 * i + j) = none := by
  unfold Memory.readEntry
  rw [Option.map_eq_none_iff, Memory.readBytes_eq_none_iff]

@[simp] theorem entryBytes_length (v : Entry) : (entryBytes v).length = 8 := toBytes_length 8 _

theorem ofBytes_entryBytes (v : Entry) : BitVec.ofNat 64 (ofBytes (entryBytes v)) = v := by
  unfold entryBytes
  rw [ofBytes_toBytes, Nat.mod_eq_of_lt (by have := v.isLt; omega)]
  simp

theorem flatMap_entryBytes_length (vs : List Entry) : (vs.flatMap entryBytes).length = 8 * vs.length := by
  induction vs with
  | nil => rfl
  | cons v vs ih => simp [ih]; omega

theorem flatMap_entryBytes_getElem? (vs : List Entry) (i j : Nat) (hi : i < vs.length) (hj : j < 8) :
    (vs.flatMap entryBytes)[8 * i + j]? = (entryBytes vs[i])[j]? := by
  induction vs generalizing i with
  | nil => simp at hi
  | cons v vs ih =>
    rw [List.flatMap_cons]
    cases i with
    | zero => rw [List.getElem?_append_left (by simp; omega)]; simp
    | succ i =>
      rw [List.getElem?_append_right (by simp; omega), entryBytes_length,
        show 8 * (i + 1) + j - 8 = 8 * i + j by omega, ih i (by simpa using hi)]
      simp

/-- Entry i reads back as written, for every entry written (R36, R63, R72). -/
theorem Memory.readEntry_writeEntries (m : Memory) (vs : List Entry) (i : Nat) (h : i < vs.length) :
    (m.writeEntries vs).readEntry i = some vs[i] := by
  have hb : (m.writeEntries vs).readBytes (8 * i) 8 = some (entryBytes vs[i]) := by
    refine collect_eq_some_iff.2 ⟨entryBytes_length _, fun j hj => ?_⟩
    have hj' : j < 8 := by simpa using hj
    unfold Memory.writeEntries
    rw [m.read_store, flatMap_entryBytes_length, if_pos (by omega), Nat.sub_zero,
      flatMap_entryBytes_getElem? vs i j h hj', List.getElem?_eq_getElem hj]
  unfold Memory.readEntry
  rw [hb, Option.map_some, ofBytes_entryBytes]

/-- Bytes past the last entry written are as before (R63, P10). -/
theorem Memory.read_writeEntries_above (m : Memory) (vs : List Entry) {a : Nat} (h : 8 * vs.length ≤ a) :
    (m.writeEntries vs).read a = m.read a :=
  m.read_store_outside (Or.inr (by rw [flatMap_entryBytes_length]; omega))

theorem Memory.writeEntries_wf {m : Memory} (vs : List Entry) (h : m.wf) : (m.writeEntries vs).wf :=
  Memory.store_wf 0 _ h

theorem Memory.writeEntries_within {m : Memory} {n : Nat} {vs : List Entry} (h : m.within (8 * n))
    (hn : vs.length ≤ n) : (m.writeEntries vs).within (8 * n) :=
  Memory.store_within h (by rw [flatMap_entryBytes_length]; omega)

theorem Memory.writeEntries_writeEntries (m : Memory) (vs : List Entry) :
    (m.writeEntries vs).writeEntries vs = m.writeEntries vs := m.store_store 0 _

theorem Memory.read_writeEntries_isSome (m : Memory) (vs : List Entry) {a : Nat} (h : (m.read a).isSome) :
    ((m.writeEntries vs).read a).isSome := m.read_store_isSome 0 _ h

end Sys2Proof.Machine
end

