-- ==== Sys2Proof/Laws/Rounding.lean ====
section
/-! SUPPORT. What the normalizer's arithmetic can answer: the rounding of R11 by cases on the remainder, the reduction of
R73, and the encoding of R76. -/

namespace Sys2Proof.Machine

/-- All that a rounded magnitude can be: the quotient below, or the one above, with the remainder that decides. -/
theorem roundMagnitude_cases (mode : TieMode) (a q : Nat) (hq : 0 < q) :
    ∃ r, r < q ∧
      ((a = roundMagnitude mode a q * q + r ∧
          (2 * r < q ∨ (2 * r = q ∧ mode = .even ∧ roundMagnitude mode a q % 2 = 0))) ∨
        (a + (q - r) = roundMagnitude mode a q * q ∧
          (q < 2 * r ∨ (2 * r = q ∧ (mode = .even → roundMagnitude mode a q % 2 = 0))))) := by
  have hdiv : a / q * q + a % q = a := Nat.div_add_mod' a q
  have hr : a % q < q := Nat.mod_lt a hq
  refine ⟨a % q, hr, ?_⟩
  have up : a + (q - a % q) = (a / q + 1) * q := by rw [Nat.add_mul, Nat.one_mul]; omega
  unfold roundMagnitude
  simp only
  by_cases h1 : q < 2 * (a % q)
  · rw [if_pos h1]; exact .inr ⟨up, .inl h1⟩
  · rw [if_neg h1]
    by_cases h2 : 2 * (a % q) = q
    · rw [if_pos h2]
      cases mode with
      | away => exact .inr ⟨up, .inr ⟨h2, by simp⟩⟩
      | even =>
        rcases Nat.mod_two_eq_zero_or_one (a / q) with h | h
        · simp only [h, Nat.add_zero]
          exact .inl ⟨hdiv.symm, .inr ⟨h2, trivial, trivial⟩⟩
        · simp only [h]
          exact .inr ⟨up, .inr ⟨h2, fun _ => by omega⟩⟩
    · rw [if_neg h2]; exact .inl ⟨hdiv.symm, .inl (by omega)⟩

/-- The sign is put back after the magnitude is rounded (R11). -/
theorem roundT_natAbs (mode : TieMode) (p : Int) (q : Nat) :
    (roundT mode p q).natAbs = roundMagnitude mode p.natAbs q := by
  unfold roundT; split <;> simp

theorem roundT_neg_or_zero_of_neg {mode : TieMode} {p : Int} {q : Nat} (h : p < 0) : roundT mode p q ≤ 0 := by
  unfold roundT; rw [if_pos h]; omega

theorem roundT_nonneg {mode : TieMode} {p : Int} {q : Nat} (h : 0 ≤ p) : 0 ≤ roundT mode p q := by
  unfold roundT; rw [if_neg (by omega)]; omega

/-- A whole multiple is its own rounding. -/
theorem roundMagnitude_mul (mode : TieMode) (k q : Nat) (hq : 0 < q) : roundMagnitude mode (k * q) q = k := by
  unfold roundMagnitude
  simp [Nat.mul_div_cancel k hq]
  omega

/-- Only the ratio counts. -/
theorem roundMagnitude_scale (mode : TieMode) (c a q : Nat) (hc : 0 < c) :
    roundMagnitude mode (c * a) (c * q) = roundMagnitude mode a q := by
  unfold roundMagnitude
  have hd : c * a / (c * q) = a / q := Nat.mul_div_mul_left a q hc
  have hm : c * a % (c * q) = c * (a % q) := Nat.mul_mod_mul_left c a q
  have h1 : c * q < 2 * (c * (a % q)) ↔ q < 2 * (a % q) := by
    rw [show 2 * (c * (a % q)) = c * (2 * (a % q)) by ring]; exact Nat.mul_lt_mul_left hc
  have h2 : 2 * (c * (a % q)) = c * q ↔ 2 * (a % q) = q := by
    rw [show 2 * (c * (a % q)) = c * (2 * (a % q)) by ring]; exact Nat.mul_right_inj (by omega)
  simp only [hd, hm, h1, h2]

/-! ## The reduction -/

/-- The reduction bounds every sample (R73). -/
theorem natAbs_le_maxAbsOf {ss : List Int} {x : Int} (h : x ∈ ss) : x.natAbs ≤ maxAbsOf ss := by
  induction ss with
  | nil => simp at h
  | cons y ys ih =>
    rcases List.mem_cons.1 h with rfl | h
    · simp [maxAbsOf]
    · have := ih h
      simp only [maxAbsOf, List.foldr_cons] at this ⊢
      omega

/-- A nonzero reduction is attained (R73). -/
theorem exists_natAbs_eq_maxAbsOf {ss : List Int} (h : maxAbsOf ss ≠ 0) : ∃ x ∈ ss, x.natAbs = maxAbsOf ss := by
  induction ss with
  | nil => simp [maxAbsOf] at h
  | cons y ys ih =>
    by_cases hy : maxAbsOf ys ≤ y.natAbs
    · exact ⟨y, by simp, by simp only [maxAbsOf, List.foldr_cons] at hy ⊢; omega⟩
    · obtain ⟨x, hx, he⟩ := ih (by omega)
      exact ⟨x, by simp [hx], by simp only [maxAbsOf, List.foldr_cons] at hy he ⊢; omega⟩

/-- The reduction is the only value that bounds every sample and is 0 or attained. -/
theorem maxAbsOf_unique {ss : List Int} {m : Nat} (hle : ∀ x ∈ ss, x.natAbs ≤ m)
    (hat : m = 0 ∨ ∃ x ∈ ss, x.natAbs = m) : maxAbsOf ss = m := by
  refine Nat.le_antisymm ?_ ?_
  · by_cases h : maxAbsOf ss = 0
    · omega
    · obtain ⟨x, hx, he⟩ := exists_natAbs_eq_maxAbsOf h
      exact he ▸ hle x hx
  · rcases hat with rfl | ⟨x, hx, rfl⟩
    · omega
    · exact natAbs_le_maxAbsOf hx

theorem maxAbsOf_le {ss : List Int} {b : Nat} (h : ∀ x ∈ ss, x.natAbs ≤ b) : maxAbsOf ss ≤ b := by
  by_cases h0 : maxAbsOf ss = 0
  · omega
  · obtain ⟨x, hx, he⟩ := exists_natAbs_eq_maxAbsOf h0
    exact he ▸ h x hx

/-! ## The encoding -/

theorem encNorm_zero_of_neg {s : Int} (h : s < 0) : encNorm 0 s = 0x8000000000000000 := by simp [encNorm, h]

theorem encNorm_zero_of_nonneg {s : Int} (h : 0 ≤ s) : encNorm 0 s = 0 := by
  simp [encNorm, show ¬ s < 0 by omega]

theorem encNorm_of_ne_zero {k : Int} (h : k ≠ 0) (s : Int) : encNorm k s = toBinary64 k 10000 := by
  simp [encNorm, h]

end Sys2Proof.Machine
end

