-- ==== Sys2Proof/Laws/State.lean ====
section
/-! SUPPORT. One lemma per field of State per named update, so that no proof unfolds a record update; and the same for the
two updates of STATUS. -/

namespace Sys2Proof.Machine

variable (s : State)

/-- `raise` is the completion with an error (R84); later lemmas speak of `finish` only. -/
@[simp] theorem raise_eq_finish (e : ErrCode) (c : FmtCause) : raise e c s = finish e c s := rfl

/-- `complete` is the completion without one (R63). -/
@[simp] theorem complete_eq_finish : complete s = finish .ok .none s := rfl

/-! ### finish -/

@[simp] theorem finish_params (e : ErrCode) (c : FmtCause) : (finish e c s).params = s.params := rfl
@[simp] theorem finish_status (e : ErrCode) (c : FmtCause) : (finish e c s).status = s.status.complete e c := rfl
@[simp] theorem finish_channels (e : ErrCode) (c : FmtCause) : (finish e c s).channels = s.channels := rfl
@[simp] theorem finish_frames (e : ErrCode) (c : FmtCause) : (finish e c s).frames = s.frames := rfl
@[simp] theorem finish_inLen (e : ErrCode) (c : FmtCause) : (finish e c s).inLen = s.inLen := rfl
@[simp] theorem finish_sampleCount (e : ErrCode) (c : FmtCause) : (finish e c s).sampleCount = s.sampleCount := rfl
@[simp] theorem finish_maxAbs (e : ErrCode) (c : FmtCause) : (finish e c s).maxAbs = s.maxAbs := rfl
@[simp] theorem finish_inBuf (e : ErrCode) (c : FmtCause) : (finish e c s).inBuf = s.inBuf := rfl
@[simp] theorem finish_smpBuf (e : ErrCode) (c : FmtCause) : (finish e c s).smpBuf = s.smpBuf := rfl
@[simp] theorem finish_nrmBuf (e : ErrCode) (c : FmtCause) : (finish e c s).nrmBuf = s.nrmBuf := rfl
@[simp] theorem finish_engine (e : ErrCode) (c : FmtCause) : (finish e c s).engine = .idle := rfl
@[simp] theorem finish_script (e : ErrCode) (c : FmtCause) : (finish e c s).script = s.script := rfl
@[simp] theorem finish_readLog (e : ErrCode) (c : FmtCause) : (finish e c s).readLog = s.readLog := rfl
@[simp] theorem finish_unseen (e : ErrCode) (c : FmtCause) : (finish e c s).unseen = s.unseen := rfl
@[simp] theorem finish_draws (e : ErrCode) (c : FmtCause) : (finish e c s).draws = s.draws := rfl

/-! ### acceptCommand -/

@[simp] theorem acceptCommand_params (w : Word) : (acceptCommand w s).params = s.params := rfl
@[simp] theorem acceptCommand_status (w : Word) : (acceptCommand w s).status = s.status.accept := rfl
@[simp] theorem acceptCommand_channels (w : Word) : (acceptCommand w s).channels = s.channels := rfl
@[simp] theorem acceptCommand_frames (w : Word) : (acceptCommand w s).frames = s.frames := rfl
@[simp] theorem acceptCommand_inLen (w : Word) : (acceptCommand w s).inLen = s.inLen := rfl
@[simp] theorem acceptCommand_sampleCount (w : Word) : (acceptCommand w s).sampleCount = s.sampleCount := rfl
@[simp] theorem acceptCommand_maxAbs (w : Word) : (acceptCommand w s).maxAbs = s.maxAbs := rfl
@[simp] theorem acceptCommand_inBuf (w : Word) : (acceptCommand w s).inBuf = s.inBuf := rfl
@[simp] theorem acceptCommand_smpBuf (w : Word) : (acceptCommand w s).smpBuf = s.smpBuf := rfl
@[simp] theorem acceptCommand_nrmBuf (w : Word) : (acceptCommand w s).nrmBuf = s.nrmBuf := rfl
@[simp] theorem acceptCommand_engine (w : Word) : (acceptCommand w s).engine = .busy w := rfl
@[simp] theorem acceptCommand_script (w : Word) : (acceptCommand w s).script = s.script := rfl
@[simp] theorem acceptCommand_readLog (w : Word) : (acceptCommand w s).readLog = s.readLog := rfl
@[simp] theorem acceptCommand_unseen (w : Word) : (acceptCommand w s).unseen = s.unseen.accept w := rfl
@[simp] theorem acceptCommand_draws (w : Word) : (acceptCommand w s).draws = s.draws := rfl

/-! ### setScript -/

@[simp] theorem setScript_params (es : List Event) : (setScript es s).params = s.params := rfl
@[simp] theorem setScript_status (es : List Event) : (setScript es s).status = s.status := rfl
@[simp] theorem setScript_channels (es : List Event) : (setScript es s).channels = s.channels := rfl
@[simp] theorem setScript_frames (es : List Event) : (setScript es s).frames = s.frames := rfl
@[simp] theorem setScript_inLen (es : List Event) : (setScript es s).inLen = s.inLen := rfl
@[simp] theorem setScript_sampleCount (es : List Event) : (setScript es s).sampleCount = s.sampleCount := rfl
@[simp] theorem setScript_maxAbs (es : List Event) : (setScript es s).maxAbs = s.maxAbs := rfl
@[simp] theorem setScript_inBuf (es : List Event) : (setScript es s).inBuf = s.inBuf := rfl
@[simp] theorem setScript_smpBuf (es : List Event) : (setScript es s).smpBuf = s.smpBuf := rfl
@[simp] theorem setScript_nrmBuf (es : List Event) : (setScript es s).nrmBuf = s.nrmBuf := rfl
@[simp] theorem setScript_engine (es : List Event) : (setScript es s).engine = s.engine := rfl
@[simp] theorem setScript_script (es : List Event) : (setScript es s).script = es := rfl
@[simp] theorem setScript_readLog (es : List Event) : (setScript es s).readLog = s.readLog := rfl
@[simp] theorem setScript_unseen (es : List Event) : (setScript es s).unseen = s.unseen := rfl
@[simp] theorem setScript_draws (es : List Event) : (setScript es s).draws = s.draws := rfl

/-! ### writeSamples -/

@[simp] theorem writeSamples_params (vs : List Int) : (writeSamples vs s).params = s.params := rfl
@[simp] theorem writeSamples_status (vs : List Int) : (writeSamples vs s).status = s.status := rfl
@[simp] theorem writeSamples_channels (vs : List Int) : (writeSamples vs s).channels = s.channels := rfl
@[simp] theorem writeSamples_frames (vs : List Int) : (writeSamples vs s).frames = s.frames := rfl
@[simp] theorem writeSamples_inLen (vs : List Int) : (writeSamples vs s).inLen = s.inLen := rfl
@[simp] theorem writeSamples_sampleCount (vs : List Int) : (writeSamples vs s).sampleCount = BitVec.ofNat 32 vs.length := rfl
@[simp] theorem writeSamples_maxAbs (vs : List Int) : (writeSamples vs s).maxAbs = s.maxAbs := rfl
@[simp] theorem writeSamples_inBuf (vs : List Int) : (writeSamples vs s).inBuf = s.inBuf := rfl
@[simp] theorem writeSamples_smpBuf (vs : List Int) : (writeSamples vs s).smpBuf = s.smpBuf.writeEntries (vs.map enc64) := rfl
@[simp] theorem writeSamples_nrmBuf (vs : List Int) : (writeSamples vs s).nrmBuf = s.nrmBuf := rfl
@[simp] theorem writeSamples_engine (vs : List Int) : (writeSamples vs s).engine = s.engine := rfl
@[simp] theorem writeSamples_script (vs : List Int) : (writeSamples vs s).script = s.script := rfl
@[simp] theorem writeSamples_readLog (vs : List Int) : (writeSamples vs s).readLog = s.readLog := rfl
@[simp] theorem writeSamples_unseen (vs : List Int) : (writeSamples vs s).unseen = s.unseen := rfl
@[simp] theorem writeSamples_draws (vs : List Int) : (writeSamples vs s).draws = s.draws := rfl

/-! ### setMaxAbs -/

@[simp] theorem setMaxAbs_params (m : Nat) : (setMaxAbs m s).params = s.params := rfl
@[simp] theorem setMaxAbs_status (m : Nat) : (setMaxAbs m s).status = s.status := rfl
@[simp] theorem setMaxAbs_channels (m : Nat) : (setMaxAbs m s).channels = s.channels := rfl
@[simp] theorem setMaxAbs_frames (m : Nat) : (setMaxAbs m s).frames = s.frames := rfl
@[simp] theorem setMaxAbs_inLen (m : Nat) : (setMaxAbs m s).inLen = s.inLen := rfl
@[simp] theorem setMaxAbs_sampleCount (m : Nat) : (setMaxAbs m s).sampleCount = s.sampleCount := rfl
@[simp] theorem setMaxAbs_maxAbs (m : Nat) : (setMaxAbs m s).maxAbs = BitVec.ofNat 64 m := rfl
@[simp] theorem setMaxAbs_inBuf (m : Nat) : (setMaxAbs m s).inBuf = s.inBuf := rfl
@[simp] theorem setMaxAbs_smpBuf (m : Nat) : (setMaxAbs m s).smpBuf = s.smpBuf := rfl
@[simp] theorem setMaxAbs_nrmBuf (m : Nat) : (setMaxAbs m s).nrmBuf = s.nrmBuf := rfl
@[simp] theorem setMaxAbs_engine (m : Nat) : (setMaxAbs m s).engine = s.engine := rfl
@[simp] theorem setMaxAbs_script (m : Nat) : (setMaxAbs m s).script = s.script := rfl
@[simp] theorem setMaxAbs_readLog (m : Nat) : (setMaxAbs m s).readLog = s.readLog := rfl
@[simp] theorem setMaxAbs_unseen (m : Nat) : (setMaxAbs m s).unseen = s.unseen := rfl
@[simp] theorem setMaxAbs_draws (m : Nat) : (setMaxAbs m s).draws = s.draws := rfl

/-! ### writeNormalized -/

@[simp] theorem writeNormalized_params (fs : List Entry) : (writeNormalized fs s).params = s.params := rfl
@[simp] theorem writeNormalized_status (fs : List Entry) : (writeNormalized fs s).status = s.status := rfl
@[simp] theorem writeNormalized_channels (fs : List Entry) : (writeNormalized fs s).channels = s.channels := rfl
@[simp] theorem writeNormalized_frames (fs : List Entry) : (writeNormalized fs s).frames = s.frames := rfl
@[simp] theorem writeNormalized_inLen (fs : List Entry) : (writeNormalized fs s).inLen = s.inLen := rfl
@[simp] theorem writeNormalized_sampleCount (fs : List Entry) : (writeNormalized fs s).sampleCount = s.sampleCount := rfl
@[simp] theorem writeNormalized_maxAbs (fs : List Entry) : (writeNormalized fs s).maxAbs = s.maxAbs := rfl
@[simp] theorem writeNormalized_inBuf (fs : List Entry) : (writeNormalized fs s).inBuf = s.inBuf := rfl
@[simp] theorem writeNormalized_smpBuf (fs : List Entry) : (writeNormalized fs s).smpBuf = s.smpBuf := rfl
@[simp] theorem writeNormalized_nrmBuf (fs : List Entry) : (writeNormalized fs s).nrmBuf = s.nrmBuf.writeEntries fs := rfl
@[simp] theorem writeNormalized_engine (fs : List Entry) : (writeNormalized fs s).engine = s.engine := rfl
@[simp] theorem writeNormalized_script (fs : List Entry) : (writeNormalized fs s).script = s.script := rfl
@[simp] theorem writeNormalized_readLog (fs : List Entry) : (writeNormalized fs s).readLog = s.readLog := rfl
@[simp] theorem writeNormalized_unseen (fs : List Entry) : (writeNormalized fs s).unseen = s.unseen := rfl
@[simp] theorem writeNormalized_draws (fs : List Entry) : (writeNormalized fs s).draws = s.draws := rfl

/-! ### returnRead -/

@[simp] theorem returnRead_params (v : Word) : (returnRead v s).params = s.params := rfl
@[simp] theorem returnRead_status (v : Word) : (returnRead v s).status = s.status := rfl
@[simp] theorem returnRead_channels (v : Word) : (returnRead v s).channels = s.channels := rfl
@[simp] theorem returnRead_frames (v : Word) : (returnRead v s).frames = s.frames := rfl
@[simp] theorem returnRead_inLen (v : Word) : (returnRead v s).inLen = s.inLen := rfl
@[simp] theorem returnRead_sampleCount (v : Word) : (returnRead v s).sampleCount = s.sampleCount := rfl
@[simp] theorem returnRead_maxAbs (v : Word) : (returnRead v s).maxAbs = s.maxAbs := rfl
@[simp] theorem returnRead_inBuf (v : Word) : (returnRead v s).inBuf = s.inBuf := rfl
@[simp] theorem returnRead_smpBuf (v : Word) : (returnRead v s).smpBuf = s.smpBuf := rfl
@[simp] theorem returnRead_nrmBuf (v : Word) : (returnRead v s).nrmBuf = s.nrmBuf := rfl
@[simp] theorem returnRead_engine (v : Word) : (returnRead v s).engine = s.engine := rfl
@[simp] theorem returnRead_script (v : Word) : (returnRead v s).script = s.script := rfl
@[simp] theorem returnRead_readLog (v : Word) : (returnRead v s).readLog = v :: s.readLog := rfl
@[simp] theorem returnRead_unseen (v : Word) : (returnRead v s).unseen = s.unseen := rfl
@[simp] theorem returnRead_draws (v : Word) : (returnRead v s).draws = s.draws := rfl

/-! ### returnStatus -/

@[simp] theorem returnStatus_params : (returnStatus s).params = s.params := rfl
@[simp] theorem returnStatus_status : (returnStatus s).status = s.status := rfl
@[simp] theorem returnStatus_channels : (returnStatus s).channels = s.channels := rfl
@[simp] theorem returnStatus_frames : (returnStatus s).frames = s.frames := rfl
@[simp] theorem returnStatus_inLen : (returnStatus s).inLen = s.inLen := rfl
@[simp] theorem returnStatus_sampleCount : (returnStatus s).sampleCount = s.sampleCount := rfl
@[simp] theorem returnStatus_maxAbs : (returnStatus s).maxAbs = s.maxAbs := rfl
@[simp] theorem returnStatus_inBuf : (returnStatus s).inBuf = s.inBuf := rfl
@[simp] theorem returnStatus_smpBuf : (returnStatus s).smpBuf = s.smpBuf := rfl
@[simp] theorem returnStatus_nrmBuf : (returnStatus s).nrmBuf = s.nrmBuf := rfl
@[simp] theorem returnStatus_engine : (returnStatus s).engine = s.engine := rfl
@[simp] theorem returnStatus_script : (returnStatus s).script = s.script := rfl
@[simp] theorem returnStatus_readLog : (returnStatus s).readLog = s.status.word :: s.readLog := rfl
@[simp] theorem returnStatus_unseen : (returnStatus s).unseen = (if s.status.showsDone then Unseen.none else s.unseen) := rfl
@[simp] theorem returnStatus_draws : (returnStatus s).draws = s.draws := rfl

/-! ### returnAny -/

@[simp] theorem returnAny_params (n : Nat) : (returnAny n s).params = s.params := rfl
@[simp] theorem returnAny_status (n : Nat) : (returnAny n s).status = s.status := rfl
@[simp] theorem returnAny_channels (n : Nat) : (returnAny n s).channels = s.channels := rfl
@[simp] theorem returnAny_frames (n : Nat) : (returnAny n s).frames = s.frames := rfl
@[simp] theorem returnAny_inLen (n : Nat) : (returnAny n s).inLen = s.inLen := rfl
@[simp] theorem returnAny_sampleCount (n : Nat) : (returnAny n s).sampleCount = s.sampleCount := rfl
@[simp] theorem returnAny_maxAbs (n : Nat) : (returnAny n s).maxAbs = s.maxAbs := rfl
@[simp] theorem returnAny_inBuf (n : Nat) : (returnAny n s).inBuf = s.inBuf := rfl
@[simp] theorem returnAny_smpBuf (n : Nat) : (returnAny n s).smpBuf = s.smpBuf := rfl
@[simp] theorem returnAny_nrmBuf (n : Nat) : (returnAny n s).nrmBuf = s.nrmBuf := rfl
@[simp] theorem returnAny_engine (n : Nat) : (returnAny n s).engine = s.engine := rfl
@[simp] theorem returnAny_script (n : Nat) : (returnAny n s).script = s.script := rfl
@[simp] theorem returnAny_readLog (n : Nat) : (returnAny n s).readLog = BitVec.ofNat 32 ((Config.freeWord s.draws).toNat % 2 ^ (8 * n)) :: s.readLog := rfl
@[simp] theorem returnAny_unseen (n : Nat) : (returnAny n s).unseen = s.unseen := rfl
@[simp] theorem returnAny_draws (n : Nat) : (returnAny n s).draws = s.draws + 1 := rfl

/-! ### returnHidden -/

@[simp] theorem returnHidden_params (hidden : List Bool) (bs : List Byte) : (returnHidden hidden bs s).params = s.params := rfl
@[simp] theorem returnHidden_status (hidden : List Bool) (bs : List Byte) : (returnHidden hidden bs s).status = s.status := rfl
@[simp] theorem returnHidden_channels (hidden : List Bool) (bs : List Byte) : (returnHidden hidden bs s).channels = s.channels := rfl
@[simp] theorem returnHidden_frames (hidden : List Bool) (bs : List Byte) : (returnHidden hidden bs s).frames = s.frames := rfl
@[simp] theorem returnHidden_inLen (hidden : List Bool) (bs : List Byte) : (returnHidden hidden bs s).inLen = s.inLen := rfl
@[simp] theorem returnHidden_sampleCount (hidden : List Bool) (bs : List Byte) : (returnHidden hidden bs s).sampleCount = s.sampleCount := rfl
@[simp] theorem returnHidden_maxAbs (hidden : List Bool) (bs : List Byte) : (returnHidden hidden bs s).maxAbs = s.maxAbs := rfl
@[simp] theorem returnHidden_inBuf (hidden : List Bool) (bs : List Byte) : (returnHidden hidden bs s).inBuf = s.inBuf := rfl
@[simp] theorem returnHidden_smpBuf (hidden : List Bool) (bs : List Byte) : (returnHidden hidden bs s).smpBuf = s.smpBuf := rfl
@[simp] theorem returnHidden_nrmBuf (hidden : List Bool) (bs : List Byte) : (returnHidden hidden bs s).nrmBuf = s.nrmBuf := rfl
@[simp] theorem returnHidden_engine (hidden : List Bool) (bs : List Byte) : (returnHidden hidden bs s).engine = s.engine := rfl
@[simp] theorem returnHidden_script (hidden : List Bool) (bs : List Byte) : (returnHidden hidden bs s).script = s.script := rfl
@[simp] theorem returnHidden_readLog (hidden : List Bool) (bs : List Byte) : (returnHidden hidden bs s).readLog =
    BitVec.ofNat 32 (ofBytes (overlay hidden bs (toBytes bs.length (Config.freeWord s.draws).toNat))) :: s.readLog := rfl
@[simp] theorem returnHidden_unseen (hidden : List Bool) (bs : List Byte) : (returnHidden hidden bs s).unseen = s.unseen := rfl
@[simp] theorem returnHidden_draws (hidden : List Bool) (bs : List Byte) : (returnHidden hidden bs s).draws = s.draws + 1 := rfl

/-! ### resetInput -/

@[simp] theorem resetInput_params : (resetInput s).params = s.params := rfl
@[simp] theorem resetInput_status : (resetInput s).status = Status.reset := rfl
@[simp] theorem resetInput_channels : (resetInput s).channels = 0 := rfl
@[simp] theorem resetInput_frames : (resetInput s).frames = 0 := rfl
@[simp] theorem resetInput_inLen : (resetInput s).inLen = 0 := rfl
@[simp] theorem resetInput_sampleCount : (resetInput s).sampleCount = 0 := rfl
@[simp] theorem resetInput_maxAbs : (resetInput s).maxAbs = 0 := rfl
@[simp] theorem resetInput_inBuf : (resetInput s).inBuf = [] := rfl
@[simp] theorem resetInput_smpBuf : (resetInput s).smpBuf = [] := rfl
@[simp] theorem resetInput_nrmBuf : (resetInput s).nrmBuf = [] := rfl
@[simp] theorem resetInput_engine : (resetInput s).engine = .idle := rfl
@[simp] theorem resetInput_script : (resetInput s).script = s.script := rfl
@[simp] theorem resetInput_readLog : (resetInput s).readLog = s.readLog := rfl
@[simp] theorem resetInput_unseen : (resetInput s).unseen = Unseen.none := rfl
@[simp] theorem resetInput_draws : (resetInput s).draws = s.draws := rfl

/-! ### setBuffer -/

@[simp] theorem setBuffer_params (b : Buffer) (m : Memory) : (setBuffer b m s).params = s.params := by cases b <;> rfl
@[simp] theorem setBuffer_status (b : Buffer) (m : Memory) : (setBuffer b m s).status = s.status := by cases b <;> rfl
@[simp] theorem setBuffer_channels (b : Buffer) (m : Memory) : (setBuffer b m s).channels = s.channels := by cases b <;> rfl
@[simp] theorem setBuffer_frames (b : Buffer) (m : Memory) : (setBuffer b m s).frames = s.frames := by cases b <;> rfl
@[simp] theorem setBuffer_inLen (b : Buffer) (m : Memory) : (setBuffer b m s).inLen = s.inLen := by cases b <;> rfl
@[simp] theorem setBuffer_sampleCount (b : Buffer) (m : Memory) : (setBuffer b m s).sampleCount = s.sampleCount := by cases b <;> rfl
@[simp] theorem setBuffer_maxAbs (b : Buffer) (m : Memory) : (setBuffer b m s).maxAbs = s.maxAbs := by cases b <;> rfl
@[simp] theorem setBuffer_inBuf (m : Memory) : (setBuffer .inBuf m s).inBuf = m := rfl
@[simp] theorem setBuffer_smpBuf_inBuf (m : Memory) : (setBuffer .smpBuf m s).inBuf = s.inBuf := rfl
@[simp] theorem setBuffer_nrmBuf_inBuf (m : Memory) : (setBuffer .nrmBuf m s).inBuf = s.inBuf := rfl
@[simp] theorem setBuffer_smpBuf (m : Memory) : (setBuffer .smpBuf m s).smpBuf = m := rfl
@[simp] theorem setBuffer_inBuf_smpBuf (m : Memory) : (setBuffer .inBuf m s).smpBuf = s.smpBuf := rfl
@[simp] theorem setBuffer_nrmBuf_smpBuf (m : Memory) : (setBuffer .nrmBuf m s).smpBuf = s.smpBuf := rfl
@[simp] theorem setBuffer_nrmBuf (m : Memory) : (setBuffer .nrmBuf m s).nrmBuf = m := rfl
@[simp] theorem setBuffer_inBuf_nrmBuf (m : Memory) : (setBuffer .inBuf m s).nrmBuf = s.nrmBuf := rfl
@[simp] theorem setBuffer_smpBuf_nrmBuf (m : Memory) : (setBuffer .smpBuf m s).nrmBuf = s.nrmBuf := rfl
@[simp] theorem setBuffer_engine (b : Buffer) (m : Memory) : (setBuffer b m s).engine = s.engine := by cases b <;> rfl
@[simp] theorem setBuffer_script (b : Buffer) (m : Memory) : (setBuffer b m s).script = s.script := by cases b <;> rfl
@[simp] theorem setBuffer_readLog (b : Buffer) (m : Memory) : (setBuffer b m s).readLog = s.readLog := by cases b <;> rfl
@[simp] theorem setBuffer_unseen (b : Buffer) (m : Memory) : (setBuffer b m s).unseen = s.unseen := by cases b <;> rfl
@[simp] theorem setBuffer_draws (b : Buffer) (m : Memory) : (setBuffer b m s).draws = s.draws := by cases b <;> rfl

/-! ### hostStore -/

@[simp] theorem hostStore_params (b : Buffer) (a : Nat) (bs : List Byte) : (hostStore b a bs s).params = s.params := by
  cases b <;> rfl
@[simp] theorem hostStore_status (b : Buffer) (a : Nat) (bs : List Byte) : (hostStore b a bs s).status = s.status := by
  cases b <;> rfl
@[simp] theorem hostStore_channels (b : Buffer) (a : Nat) (bs : List Byte) : (hostStore b a bs s).channels = s.channels := by
  cases b <;> rfl
@[simp] theorem hostStore_frames (b : Buffer) (a : Nat) (bs : List Byte) : (hostStore b a bs s).frames = s.frames := by
  cases b <;> rfl
@[simp] theorem hostStore_inLen (b : Buffer) (a : Nat) (bs : List Byte) : (hostStore b a bs s).inLen = s.inLen := by
  cases b <;> rfl
@[simp] theorem hostStore_sampleCount (b : Buffer) (a : Nat) (bs : List Byte) : (hostStore b a bs s).sampleCount = s.sampleCount := by
  cases b <;> rfl
@[simp] theorem hostStore_maxAbs (b : Buffer) (a : Nat) (bs : List Byte) : (hostStore b a bs s).maxAbs = s.maxAbs := by
  cases b <;> rfl
@[simp] theorem hostStore_engine (b : Buffer) (a : Nat) (bs : List Byte) : (hostStore b a bs s).engine = s.engine := by
  cases b <;> rfl
@[simp] theorem hostStore_script (b : Buffer) (a : Nat) (bs : List Byte) : (hostStore b a bs s).script = s.script := by
  cases b <;> rfl
@[simp] theorem hostStore_readLog (b : Buffer) (a : Nat) (bs : List Byte) : (hostStore b a bs s).readLog = s.readLog := by
  cases b <;> rfl
@[simp] theorem hostStore_unseen (b : Buffer) (a : Nat) (bs : List Byte) : (hostStore b a bs s).unseen = s.unseen.wrote b a bs := by
  cases b <;> rfl
@[simp] theorem hostStore_draws (b : Buffer) (a : Nat) (bs : List Byte) : (hostStore b a bs s).draws = s.draws := by
  cases b <;> rfl

/-- A replaced buffer reads back, and no other buffer changes. -/
theorem bufferOf_setBuffer (b c : Buffer) (m : Memory) :
    bufferOf c (setBuffer b m s) = if c = b then m else bufferOf c s := by
  cases b <;> cases c <;> rfl

/-- What the host stores is in its buffer, and no other buffer changes. -/
theorem bufferOf_hostStore (b c : Buffer) (a : Nat) (bs : List Byte) :
    bufferOf c (hostStore b a bs s) = if c = b then (bufferOf b s).store a bs else bufferOf c s := by
  cases b <;> cases c <;> rfl

/-! ### STATUS -/

variable (st : Status)

@[simp] theorem Status.accept_busy : st.accept.busy = true := rfl
@[simp] theorem Status.accept_done : st.accept.done = false := rfl
@[simp] theorem Status.accept_errCode : st.accept.errCode = st.errCode := rfl
@[simp] theorem Status.accept_fmtCause : st.accept.fmtCause = st.fmtCause := rfl
@[simp] theorem Status.accept_errSeen : st.accept.errSeen = st.errSeen := rfl
@[simp] theorem Status.complete_busy (e : ErrCode) (c : FmtCause) : (st.complete e c).busy = false := rfl
@[simp] theorem Status.complete_done (e : ErrCode) (c : FmtCause) : (st.complete e c).done = true := rfl
@[simp] theorem Status.complete_errCode (e : ErrCode) (c : FmtCause) : (st.complete e c).errCode = e := rfl
@[simp] theorem Status.complete_fmtCause (e : ErrCode) (c : FmtCause) : (st.complete e c).fmtCause = c := rfl
@[simp] theorem Status.complete_errSeen (e : ErrCode) (c : FmtCause) : (st.complete e c).errSeen = (st.errSeen || e != .ok) := rfl

/-- Completing twice with the same result leaves what completing once leaves. -/
theorem Status.complete_complete (e : ErrCode) (c : FmtCause) :
    (st.complete e c).complete e c = st.complete e c := by
  simp [Status.complete]

/-! ### accepting -/

theorem accepting_iff : accepting s = true ↔ s.engine = .idle := by
  unfold accepting; cases s.engine <;> simp

theorem accepting_of_idle (h : s.engine = .idle) : accepting s = true := (accepting_iff s).2 h

theorem not_accepting_of_busy {cmd : Word} (h : s.engine = .busy cmd) : accepting s = false := by
  unfold accepting; rw [h]

end Sys2Proof.Machine
end

