-- ==== Sys2Proof/Laws/Commands.lean ====
section
/-! SUPPORT. What a command can do, said once: the samples it collects, and every next state it can answer. -/

namespace Sys2Proof.Machine

/-! ## Collecting samples -/

/-- The N samples of width W, when every byte they need is written (R62). -/
theorem inSamples_of_forall {W : Nat} {unpack : List Byte → Int} {s : State} {raw : Nat → Byte}
    (h : ∀ a, a < bytesRequired W s → s.inBuf.read a = some (raw a)) :
    inSamples W unpack s =
      some ((List.range (sampleTotal s)).map (fun i => unpack ((List.range W).map (fun j => raw (i * W + j))))) := by
  have hi : ∀ i, i < sampleTotal s →
      ((inRead s (0 + i * W) W).map unpack) = some (unpack ((List.range W).map (fun j => raw (i * W + j)))) := by
    intro i hi
    have : inRead s (0 + i * W) W = some ((List.range W).map (fun j => raw (i * W + j))) := by
      unfold inRead
      rw [Nat.zero_add]
      refine Memory.readBytes_of_forall fun j hj => h _ ?_
      have : (i + 1) * W ≤ sampleTotal s * W := Nat.mul_le_mul_right W hi
      unfold bytesRequired
      rw [Nat.add_mul, Nat.one_mul] at this
      omega
    rw [this, Option.map_some]
  unfold inSamples
  have := collect_of_forall (f := fun i => (inRead s (i * W) W).map unpack)
    (g := fun i => unpack ((List.range W).map (fun j => raw (i * W + j)))) (i := 0) (n := sampleTotal s)
    (fun j hj => by simpa using hi j hj)
  simpa using this

/-- The samples are missing exactly when a byte they need is unwritten (R70). -/
theorem inSamples_eq_none_iff {W : Nat} {unpack : List Byte → Int} {s : State} :
    inSamples W unpack s = none ↔ ∃ a, a < bytesRequired W s ∧ s.inBuf.read a = none := by
  unfold inSamples
  rw [collect_eq_none_iff]
  constructor
  · rintro ⟨i, hi, h⟩
    rw [Option.map_eq_none_iff, Nat.zero_add] at h
    obtain ⟨j, hj, hn⟩ := Memory.readBytes_eq_none_iff.1 h
    refine ⟨i * W + j, ?_, hn⟩
    have : (i + 1) * W ≤ sampleTotal s * W := Nat.mul_le_mul_right W hi
    unfold bytesRequired
    rw [Nat.add_mul, Nat.one_mul] at this
    omega
  · rintro ⟨a, ha, hn⟩
    unfold bytesRequired at ha
    have hW : 0 < W := Nat.pos_of_ne_zero fun h => by simp [h] at ha
    refine ⟨a / W, Nat.div_lt_of_lt_mul (by rwa [Nat.mul_comm]), ?_⟩
    rw [Option.map_eq_none_iff, Nat.zero_add]
    refine Memory.readBytes_eq_none_iff.2 ⟨a % W, Nat.mod_lt a hW, ?_⟩
    rwa [Nat.div_add_mod']

theorem inSamples_length {W : Nat} {unpack : List Byte → Int} {s : State} {vs : List Int}
    (h : inSamples W unpack s = some vs) : vs.length = sampleTotal s := collect_length h

theorem smpSamples_length {N : Nat} {s : State} {ss : List Int} (h : smpSamples N s = some ss) : ss.length = N :=
  collect_length h

/-- The samples of SMP_BUF, when every entry is written (R72). -/
theorem smpSamples_of_forall {N : Nat} {s : State} {v : Nat → Int} (h : ∀ i, i < N → smpRead s i = some (v i)) :
    smpSamples N s = some ((List.range N).map v) := by
  have := collect_of_forall (f := smpRead s) (g := v) (i := 0) (n := N) (fun j hj => by simpa using h j hj)
  simpa [smpSamples] using this

theorem smpSamples_getElem {N : Nat} {s : State} {ss : List Int} (h : smpSamples N s = some ss) {i : Nat}
    (hi : i < ss.length) : smpRead s i = some ss[i] := by
  simpa using (collect_eq_some_iff.1 h).2 i hi

/-- The samples are missing exactly when a byte of entries 0 .. N-1 is unwritten (R80). -/
theorem smpSamples_eq_none_iff {N : Nat} {s : State} :
    smpSamples N s = none ↔ ∃ a, a < 8 * N ∧ s.smpBuf.read a = none := by
  unfold smpSamples
  rw [collect_eq_none_iff]
  constructor
  · rintro ⟨i, hi, h⟩
    unfold smpRead at h
    rw [Option.map_eq_none_iff, Memory.readEntry_eq_none_iff] at h
    obtain ⟨j, hj, hn⟩ := h
    exact ⟨8 * (0 + i) + j, by omega, hn⟩
  · rintro ⟨a, ha, hn⟩
    refine ⟨a / 8, by omega, ?_⟩
    unfold smpRead
    rw [Option.map_eq_none_iff, Memory.readEntry_eq_none_iff]
    exact ⟨a % 8, by omega, by rwa [Nat.zero_add, Nat.div_add_mod]⟩

/-- A sample read from SMP_BUF has magnitude at most 2^63 (R29). -/
theorem natAbs_le_of_smpRead {s : State} {i : Nat} {x : Int} (h : smpRead s i = some x) : x.natAbs ≤ 2 ^ 63 := by
  unfold smpRead at h
  obtain ⟨v, -, rfl⟩ := Option.map_eq_some_iff.1 h
  have h1 := BitVec.le_toInt v
  have h2 := BitVec.toInt_lt (x := v)
  omega

theorem maxAbsOf_smpSamples_le {N : Nat} {s : State} {ss : List Int} (h : smpSamples N s = some ss) :
    maxAbsOf ss ≤ 2 ^ 63 := by
  refine maxAbsOf_le fun x hx => ?_
  obtain ⟨i, hi, rfl⟩ := List.getElem_of_mem hx
  exact natAbs_le_of_smpRead (smpSamples_getElem h hi)

/-! ## The checks -/

/-- The checks pass exactly under the conditions of R61. -/
theorem decodeCheck_eq_none_iff {W : Nat} {s : State} :
    decodeCheck W s = none ↔
      s.channels ≠ 0 ∧ s.inLen.toNat = bytesRequired W s ∧ bytesRequired W s ≤ s.params.inCap ∧
        sampleTotal s ≤ s.params.sampleCap := by
  unfold decodeCheck
  split
  · simp_all
  split
  · simp; intros; omega
  split
  · simp; intros; omega
  split
  · simp; intros; omega
  · exact iff_of_true rfl ⟨‹_›, by omega, by omega, by omega⟩

/-- A check that fails names an error, with a sub-cause exactly for a FormatError (R61, R83). -/
theorem decodeCheck_error {W : Nat} {s : State} {e : ErrCode} {c : FmtCause} (h : decodeCheck W s = some (e, c)) :
    e ≠ .ok ∧ (c ≠ .none ↔ e = .formatError) := by
  unfold decodeCheck at h
  repeat' split at h
  all_goals simp_all
  all_goals (obtain ⟨rfl, rfl⟩ := h; simp)

/-! ## What a command can do -/

/-- Every next state that a command's completion can lead to (R63, R72, R84). -/
inductive CommandEffect (s : State) : State → Prop
  /-- An error that writes STATUS only (R84). -/
  | failed (e : ErrCode) (c : FmtCause) (he : e ≠ .ok) (hc : c ≠ .none ↔ e = .formatError) :
      CommandEffect s (finish e c s)
  /-- DivideByZeroError, after MAXABS ← 0 (R73, R74). -/
  | zeroDivisor : CommandEffect s (finish .divideByZero .none (setMaxAbs 0 s))
  /-- A successful DECODE (R63). -/
  | decoded (vs : List Int) (hn : vs.length = sampleTotal s) (hcap : vs.length ≤ s.params.sampleCap) :
      CommandEffect s (finish .ok .none (writeSamples vs s))
  /-- A successful NORMALIZE (R72). -/
  | normalized (m : Nat) (fs : List Entry) (hm : m ≤ 2 ^ 63) (hn : fs.length = s.sampleCount.toNat)
      (hcap : fs.length ≤ s.params.sampleCap) :
      CommandEffect s (finish .ok .none (writeNormalized fs (setMaxAbs m s)))

/-- All that a DECODE.Ix can answer. -/
theorem decodeCommand_next {W : Nat} {unpack : List Byte → Int} {s t : State}
    (h : decodeCommand W unpack s = .next t) :
    (∃ e c, decodeCheck W s = some (e, c) ∧ t = finish e c s) ∨
      (decodeCheck W s = none ∧ ∃ vs, inSamples W unpack s = some vs ∧ t = finish .ok .none (writeSamples vs s)) := by
  unfold decodeCommand at h
  split at h
  · rename_i e c hc
    cases h
    exact .inl ⟨e, c, hc, rfl⟩
  · rename_i hc
    split at h
    · cases h
    · rename_i vs hvs
      cases h
      exact .inr ⟨hc, vs, hvs, rfl⟩

theorem decodeCommand_effect {W : Nat} {unpack : List Byte → Int} {s t : State}
    (h : decodeCommand W unpack s = .next t) : CommandEffect s t := by
  obtain ⟨e, c, hc, rfl⟩ | ⟨hc, vs, hvs, rfl⟩ := decodeCommand_next h
  · exact .failed e c (decodeCheck_error hc).1 (decodeCheck_error hc).2
  · have hlen := inSamples_length hvs
    exact .decoded vs hlen (hlen ▸ (decodeCheck_eq_none_iff.1 hc).2.2.2)

/-- All that NORMALIZE can answer. -/
theorem execNormalize_next {s t : State} (h : execNormalize s = .next t) :
    (s.params.sampleCap < s.sampleCount.toNat ∧ t = finish .capacityError .none s) ∨
      (s.sampleCount.toNat ≤ s.params.sampleCap ∧ ∃ ss, smpSamples s.sampleCount.toNat s = some ss ∧
        ((maxAbsOf ss = 0 ∧ t = finish .divideByZero .none (setMaxAbs 0 s)) ∨
          (maxAbsOf ss ≠ 0 ∧ t = finish .ok .none
            (writeNormalized (ss.map (normalizeSample s.params.tieMode (maxAbsOf ss)))
              (setMaxAbs (maxAbsOf ss) s))))) := by
  unfold execNormalize at h
  split at h
  · cases h; exact .inl ⟨‹_›, rfl⟩
  · rename_i hle
    split at h
    · cases h
    · rename_i ss hss
      cases h
      refine .inr ⟨by omega, ss, hss, ?_⟩
      unfold normalizeSamples
      split
      · exact .inl ⟨‹_›, rfl⟩
      · exact .inr ⟨‹_›, rfl⟩

theorem execNormalize_effect {s t : State} (h : execNormalize s = .next t) : CommandEffect s t := by
  obtain ⟨-, rfl⟩ | ⟨hle, ss, hss, ⟨-, rfl⟩ | ⟨-, rfl⟩⟩ := execNormalize_next h
  · exact .failed _ _ (by simp) (by simp)
  · exact .zeroDivisor
  · have hlen := smpSamples_length hss
    exact .normalized _ _ (maxAbsOf_smpSamples_le hss) (by simpa using hlen) (by simpa [hlen] using hle)

/-- All that a command can do. -/
theorem exec_effect {i : Instr} {s t : State} (h : exec i s = .next t) : CommandEffect s t := by
  cases i with
  | decodeI8 => exact decodeCommand_effect h
  | decodeI16 => exact decodeCommand_effect h
  | decodeI24 => exact decodeCommand_effect h
  | decodeI32 => exact decodeCommand_effect h
  | decodeI64 => exact decodeCommand_effect h
  | decodeBadWidth width =>
    obtain rfl : finish .formatError .unsupportedWidth s = t := by
      simpa [exec, execDecodeBadWidth] using h
    exact .failed _ _ (by simp) (by simp)
  | normalize => exact execNormalize_effect h

/-- All that a command word can do, the illegal ones too (R52). -/
theorem runCommand_effect {w : Word} {s t : State} (h : runCommand w s = .next t) : CommandEffect s t := by
  unfold runCommand at h
  split at h
  · exact exec_effect h
  · obtain rfl : finish .illegalCommand .none s = t := by simpa using h
    exact .failed _ _ (by simp) (by simp)

/-- A command that writes SMP_BUF is one whose outputs include it (R97): accepting its word forgets what the host has
written there. -/
theorem runCommand_smpBuf {w : Word} {s t : State} (h : runCommand w s = .next t) :
    t.smpBuf = s.smpBuf ∨ ∀ u : Unseen, (u.accept w).since = [] := by
  unfold runCommand at h
  cases hd : decodeWord w with
  | illegal why =>
    rw [hd] at h
    obtain rfl : finish .illegalCommand .none s = t := by simpa using h
    exact .inl rfl
  | command i =>
    rw [hd] at h
    cases i with
    | normalize =>
      obtain ⟨-, rfl⟩ | ⟨-, ss, -, ⟨-, rfl⟩ | ⟨-, rfl⟩⟩ := execNormalize_next h <;> exact .inl rfl
    | decodeBadWidth width =>
      obtain rfl : finish .formatError .unsupportedWidth s = t := by simpa [exec, execDecodeBadWidth] using h
      exact .inl rfl
    | _ => exact .inr fun u => by unfold Unseen.accept; rw [hd]; rfl

/-- All that the engine's turn can do (R32). -/
theorem engineStep_effect {s t : State} (h : engineStep s = .next t) :
    (s.engine = .idle ∧ t = s) ∨ (∃ cmd, s.engine = .busy cmd ∧ runCommand cmd s = .next t) := by
  unfold engineStep at h
  split at h
  · cases h; exact .inl ⟨‹_›, rfl⟩
  · exact .inr ⟨_, ‹_›, h⟩

end Sys2Proof.Machine
end

