-- ==== Sys2Proof/Laws/Bus.lean ====
section
/-! SUPPORT. What a host access and a step can do, said once. -/

namespace Sys2Proof.Machine

/-- A bus access that reaches a buffer lies wholly within it (R40). -/
theorem bufferTarget_within {p : Params} {b b' : Buffer} {a a' size : Nat}
    (h : bufferTarget p b a size = .buffer b' a') : b' = b ∧ a' = a ∧ a + size ≤ capacityOf p b := by
  unfold bufferTarget at h
  repeat' split at h
  all_goals simp_all

theorem busTarget_within {p : Params} {addr size : Nat} {b : Buffer} {a : Nat}
    (h : busTarget p addr size = .buffer b a) : a + size ≤ capacityOf p b := by
  unfold busTarget at h
  split at h
  · unfold registerTarget at h
    repeat' split at h
    all_goals simp at h
  · split at h
    · simp at h
    · obtain ⟨rfl, rfl, h⟩ := bufferTarget_within h
      exact h

/-- Every next state that a host access can lead to (R37, R41, R46). -/
inductive HostEffect (s : State) : State → Prop
  /-- A write to a read-only register (R41). -/
  | ignored : HostEffect s s
  /-- A CTRL write with the engine Idle (R17). -/
  | accepted (w : Word) (hidle : s.engine = .idle) : HostEffect s (acceptCommand w s)
  /-- Writes to the RW registers with the engine Idle (R41). -/
  | channels (v : Word) (hidle : s.engine = .idle) : HostEffect s { s with channels := v }
  | frames (v : Word) (hidle : s.engine = .idle) : HostEffect s { s with frames := v }
  | inLen (v : Word) (hidle : s.engine = .idle) : HostEffect s { s with inLen := v }
  | sampleCount (v : Word) (hidle : s.engine = .idle) :
      HostEffect s { s with sampleCount := v, unseen := { s.unseen with count := false } }
  /-- A write to IN_BUF or SMP_BUF with the engine Idle (R27, R42). -/
  | stored (b : Buffer) (a n : Nat) (v : Word) (hidle : s.engine = .idle) (hb : b ≠ .nrmBuf)
      (hcap : a + n ≤ capacityOf s.params b) :
      HostEffect s (hostStore b a (toBytes n v.toNat) s)
  /-- A read of a defined value. -/
  | read (v : Word) : HostEffect s (returnRead v s)
  /-- A read of STATUS (R46, R47). -/
  | readStatus : HostEffect s (returnStatus s)
  /-- An any-value read of a register, or of a buffer while Busy (R99). -/
  | readAny (n : Nat) : HostEffect s (returnAny n s)
  /-- A read of a buffer of which some bytes are not defined to the host (R46(c), R97). -/
  | readHidden (hidden : List Bool) (bs : List Byte) : HostEffect s (returnHidden hidden bs s)

theorem hostRegWrite_effect {r : HostReg} {v : Word} {s t : State} (h : hostRegWrite r v s = .next t) :
    HostEffect s t := by
  unfold hostRegWrite at h
  split at h
  · cases h; exact .ignored
  split at h
  · cases h
  · rename_i hacc
    have hidle : s.engine = .idle := (accepting_iff s).1 (by simpa using hacc)
    cases r <;> cases h
    all_goals first
      | exact .ignored
      | exact .accepted v hidle
      | exact .channels v hidle
      | exact .frames v hidle
      | exact .inLen v hidle
      | exact .sampleCount v hidle

theorem hostRegRead_effect {r : HostReg} {s t : State} (h : hostRegRead r s = .next t) : HostEffect s t := by
  unfold hostRegRead at h
  split at h
  · cases h
    exact .readAny 4
  · cases r <;> cases h
    all_goals first
      | exact .readStatus
      | exact .read _

theorem hostBufWrite_effect {b : Buffer} {a n : Nat} {v : Word} {s t : State}
    (hcap : a + n ≤ capacityOf s.params b) (h : hostBufWrite b a n v s = .next t) : HostEffect s t := by
  unfold hostBufWrite at h
  split at h
  · cases h
  split at h
  · cases h
  · rename_i hb hacc
    cases h
    exact .stored b a n v ((accepting_iff s).1 (by simpa using hacc)) hb hcap

theorem hostBufRead_effect {b : Buffer} {a n : Nat} {s t : State} (h : hostBufRead b a n s = .next t) :
    HostEffect s t := by
  unfold hostBufRead at h
  split at h
  · cases h
    exact .readAny n
  · split at h
    · cases h
    · split at h
      · cases h; exact .readHidden _ _
      · cases h; exact .read _

/-- All that a host transaction can do. -/
theorem hostAccess_effect {x : Transaction} {s t : State} (h : hostAccess x s = .next t) : HostEffect s t := by
  unfold hostAccess at h
  split at h
  · split at h
    · cases h
    · exact hostRegWrite_effect h
    · exact hostBufWrite_effect (busTarget_within ‹_›) h
  · split at h
    · cases h
    · exact hostRegRead_effect h
    · exact hostBufRead_effect h

/-- All that a turn of POLL can do (R59). -/
theorem pollStep_next {spins : Nat} {rest : List Event} {s t : State} (h : pollStep spins rest s = .next t) :
    (∃ es, t = setScript es (returnStatus s)) ∨ (∃ cmd, s.engine = .busy cmd ∧ runCommand cmd s = .next t) := by
  unfold pollStep at h
  split at h
  · cases h; exact .inl ⟨_, rfl⟩
  · rename_i hacc
    cases spins with
    | zero =>
      rcases engineStep_effect h with ⟨hidle, -⟩ | hbusy
      · exact absurd (accepting_of_idle s hidle) hacc
      · exact .inr hbusy
    | succ k => cases h; exact .inl ⟨_, rfl⟩

/-- Every next state that a step can lead to: the block stays, the engine completes, the host acts, POLL reads STATUS,
or the reset input is asserted. -/
theorem step_next {s t : State} (h : step s = .next t) :
    (∃ es, t = setScript es s) ∨
      (∃ es cmd, s.engine = .busy cmd ∧ runCommand cmd (setScript es s) = .next t) ∨
      (∃ es, HostEffect (setScript es s) t) ∨
      (∃ es, t = setScript es (returnStatus s)) ∨
      (∃ es, s.script = .reset :: es ∧ t = resetInput (setScript es s)) := by
  unfold step at h
  split at h
  · rcases engineStep_effect h with ⟨-, rfl⟩ | ⟨cmd, hb, he⟩
    · exact .inl ⟨_, rfl⟩
    · exact .inr (.inl ⟨s.script, cmd, hb, he⟩)
  · rename_i rest hs
    rcases engineStep_effect h with ⟨-, rfl⟩ | ⟨cmd, hb, he⟩
    · exact .inl ⟨rest, rfl⟩
    · exact .inr (.inl ⟨rest, cmd, hb, he⟩)
  · exact .inr (.inr (.inl ⟨_, hostAccess_effect h⟩))
  · rcases pollStep_next h with ⟨es, rfl⟩ | ⟨cmd, hb, he⟩
    · exact .inr (.inr (.inr (.inl ⟨es, rfl⟩)))
    · exact .inr (.inl ⟨s.script, cmd, hb, he⟩)
  · cases h
    exact .inr (.inr (.inr (.inr ⟨_, ‹_›, rfl⟩)))

end Sys2Proof.Machine
end

