-- ==== Sys2Proof/Laws/Decode.lean ====
section
/-! SUPPORT. The fields of a command word built from OP and WIDTH, and the value of a word from its fields. -/

namespace Sys2Proof

theorem opField_commandWord (op : BitVec 4) (width : BitVec 8) : opField (commandWord op width) = op := by
  apply BitVec.eq_of_getLsbD_eq
  intro j hj
  simp only [opField, commandWord, BitVec.getLsbD_append, BitVec.getLsbD_extractLsb']
  simp [hj]

theorem rsv0Field_commandWord (op : BitVec 4) (width : BitVec 8) : rsv0Field (commandWord op width) = 0 := by
  apply BitVec.eq_of_getLsbD_eq
  intro j hj
  simp only [rsv0Field, commandWord, BitVec.getLsbD_append, BitVec.getLsbD_extractLsb']
  simp [hj]

theorem widthField_commandWord (op : BitVec 4) (width : BitVec 8) : widthField (commandWord op width) = width := by
  apply BitVec.eq_of_getLsbD_eq
  intro j hj
  simp only [widthField, commandWord, BitVec.getLsbD_append, BitVec.getLsbD_extractLsb']
  simp [hj, show ¬ 8 + j < 4 by omega, show 8 + j - 4 - 4 = j by omega,
    show ¬ 8 + j - 4 < 4 by omega]

theorem rsv1Field_commandWord (op : BitVec 4) (width : BitVec 8) : rsv1Field (commandWord op width) = 0 := by
  apply BitVec.eq_of_getLsbD_eq
  intro j hj
  simp only [rsv1Field, commandWord, BitVec.getLsbD_append, BitVec.getLsbD_extractLsb']
  simp [hj, show ¬ 16 + j < 4 by omega,
    show ¬ 16 + j - 4 < 4 by omega, show ¬ 16 + j - 4 - 4 < 8 by omega]

/-- A word whose reserved fields are 0 is the command word of its OP and WIDTH (R49). -/
theorem commandWord_of_fields (w : Word) (h0 : rsv0Field w = 0) (h1 : rsv1Field w = 0) :
    commandWord (opField w) (widthField w) = w := by
  apply BitVec.eq_of_getLsbD_eq
  intro j hj
  have g0 : ∀ k, k < 4 → w.getLsbD (4 + k) = false := fun k hk => by
    have := congrArg (fun v => BitVec.getLsbD v k) h0
    simpa [rsv0Field, hk] using this
  have g1 : ∀ k, k < 16 → w.getLsbD (16 + k) = false := fun k hk => by
    have := congrArg (fun v => BitVec.getLsbD v k) h1
    simpa [rsv1Field, hk] using this
  simp only [commandWord, BitVec.getLsbD_append, opField, widthField, BitVec.getLsbD_extractLsb', Nat.zero_add]
  by_cases a : j < 4
  · simp [a]
  by_cases b : j < 8
  · have := g0 (j - 4) (by omega)
    rw [show 4 + (j - 4) = j by omega] at this
    simp [a, show j - 4 < 4 by omega, this]
  by_cases c : j < 16
  · simp [a, show ¬ j - 4 < 4 by omega, show j - 4 - 4 < 8 by omega, show 8 + (j - 4 - 4) = j by omega]
  · have := g1 (j - 16) (by omega)
    rw [show 16 + (j - 16) = j by omega] at this
    simp [a, show ¬ j - 4 < 4 by omega, show ¬ j - 4 - 4 < 8 by omega, this]

/-- Decoding a command word of reserved fields 0 is a choice on OP and WIDTH (R53). -/
theorem decodeWord_commandWord (op : BitVec 4) (width : BitVec 8) :
    decodeWord (commandWord op width) =
      if op = 0x1 then .command (decodeOfWidth width)
      else if op = 0x2 then
        if width = 0 then .command .normalize else .illegal .normalizeWithWidth
      else .illegal .reservedOp := by
  simp [decodeWord, opField_commandWord, widthField_commandWord, rsv0Field_commandWord, rsv1Field_commandWord]

/-- The bytes of a word in the register window are read back as that word (R36). -/
theorem wordOfBytes_bytesOfWord (w : Word) :
    wordOfBytes (w.extractLsb' 0 8) (w.extractLsb' 8 8) (w.extractLsb' 16 8) (w.extractLsb' 24 8) = w := by
  apply BitVec.eq_of_getLsbD_eq
  intro j hj
  simp only [wordOfBytes, BitVec.getLsbD_append, BitVec.getLsbD_extractLsb']
  by_cases a : j < 8
  · simp [a]
  by_cases b : j < 16
  · simp [a, show j - 8 < 8 by omega, show 8 + (j - 8) = j by omega]
  by_cases c : j < 24
  · simp [a, show ¬ j - 8 < 8 by omega, show j - 8 - 8 < 8 by omega, show 16 + (j - 8 - 8) = j by omega]
  · simp [a, show ¬ j - 8 < 8 by omega, show ¬ j - 8 - 8 < 8 by omega, show j - 8 - 8 - 8 < 8 by omega,
      show 24 + (j - 8 - 8 - 8) = j by omega]

/-- The byte decoder on a word's own bytes is the word decoder. -/
theorem decodeBytes_bytesOfWord (w : Word) : decodeBytes (bytesOfWord w) = (decodeWord w, []) := by
  simp only [bytesOfWord, decodeBytes, wordOfBytes_bytesOfWord]

end Sys2Proof
end

