-- ==== Sys2Proof/Laws/PerInstr.lean ====
section
/-! SUPPORT. Statements made for every instruction, one lemma per constructor. -/

namespace Sys2Proof.Laws.EncodeFields

/-- Of every command word the reserved fields RSV0 and RSV1 are 0 (R49, R52). -/
def Statement (i : Instr) : Prop := rsv0Field (encode i) = 0 ∧ rsv1Field (encode i) = 0

theorem decodeI8 : Statement .decodeI8 := ⟨rsv0Field_commandWord _ _, rsv1Field_commandWord _ _⟩

theorem decodeI16 : Statement .decodeI16 := ⟨rsv0Field_commandWord _ _, rsv1Field_commandWord _ _⟩

theorem decodeI24 : Statement .decodeI24 := ⟨rsv0Field_commandWord _ _, rsv1Field_commandWord _ _⟩

theorem decodeI32 : Statement .decodeI32 := ⟨rsv0Field_commandWord _ _, rsv1Field_commandWord _ _⟩

theorem decodeI64 : Statement .decodeI64 := ⟨rsv0Field_commandWord _ _, rsv1Field_commandWord _ _⟩

theorem decodeBadWidth (width : BitVec 8) : Statement (.decodeBadWidth width) :=
  ⟨rsv0Field_commandWord _ _, rsv1Field_commandWord _ _⟩

theorem normalize : Statement .normalize := ⟨rsv0Field_commandWord _ _, rsv1Field_commandWord _ _⟩

end Sys2Proof.Laws.EncodeFields
end

