-- ==== Sys2Proof/Laws/Safety.lean ====
section
/-! SUPPORT. The states that commands end in, in the terms of Safety.lean, and where a good bus access goes. -/

namespace Sys2Proof.Machine

/-- A completion with an error is the error state (R84). -/
theorem finish_eq_errorState {e : ErrCode} (h : e ≠ .ok) (c : FmtCause) (s : State) :
    finish e c s = errorState e c s := by
  cases e <;> simp_all [errorState, finish, Status.complete]

/-- A completion with success. -/
theorem finish_ok (s : State) : finish .ok .none s = { s with engine := .idle, status := successStatus s } := by
  simp [finish, Status.complete, successStatus]

/-- A host event at the head of the script is the next step (R46). -/
theorem step_host {s : State} {x : Transaction} {rest : List Event} (h : s.script = .host x :: rest) :
    step s = hostAccess x (setScript rest s) := by
  unfold step; rw [h]

/-- A register access of the right size at a listed offset (R39). -/
theorem busTarget_register (p : Params) {off : Word} {r : HostReg} (hlt : off.toNat < 0x100) (h4 : off.toNat % 4 = 0)
    (hr : registerAt off.toNat = some r) : busTarget p off.toNat 4 = .register r := by
  simp [busTarget, hlt, registerTarget, h4, hr]

/-- The register map has each register at its offset (R16). -/
theorem registerAt_registerOffset (r : HostReg) : registerAt (registerOffset r).toNat = some r := by
  cases r <;> rfl

/-- Byte `a` of a window is that byte of its buffer (R38). -/
theorem windowOf_windowBase (b : Buffer) {a : Nat} (h : a < 0x10000000) : windowOf (windowBase b + a) = some (b, a) := by
  cases b
  · show windowOf (0x10000000 + a) = _
    unfold windowOf; rw [if_pos (by omega)]; simp
  · show windowOf (0x20000000 + a) = _
    unfold windowOf; rw [if_neg (by omega), if_pos (by omega)]; simp
  · show windowOf (0x30000000 + a) = _
    unfold windowOf; rw [if_neg (by omega), if_neg (by omega), if_pos (by omega)]; simp

theorem busAddress_toNat (b : Buffer) {a : Nat} (h : a < 0x10000000) : (busAddress b a).toNat = windowBase b + a := by
  unfold busAddress; rw [BitVec.toNat_ofNat]; cases b <;> simp only [windowBase] <;> omega

/-- The bytes of a good access lie in its window (R6, R38). -/
theorem goodAccess_lt {p : Params} (hp : p.legal) {b : Buffer} {a n : Nat} (h : goodAccess p b a n) :
    a < 0x10000000 := by
  obtain ⟨-, h1, -, h2⟩ := hp
  obtain ⟨hn, -, hc⟩ := h
  cases b <;> simp only [capacityOf] at hc <;> omega

/-- A good access reaches its buffer (R38 to R40). -/
theorem busTarget_buffer {p : Params} (hp : p.legal) {b : Buffer} {a n : Nat} (h : goodAccess p b a n) :
    busTarget p (busAddress b a).toNat n = .buffer b a := by
  have hlt := goodAccess_lt hp h
  obtain ⟨hn, ha, hc⟩ := h
  rw [busAddress_toNat b hlt]
  unfold busTarget
  rw [if_neg (by cases b <;> simp only [windowBase] <;> omega), windowOf_windowBase b hlt]
  simp only [bufferTarget]
  rw [if_neg (by omega), if_neg (by omega), if_neg (by omega)]

/-- An access whose target is a bus error faults (R39, R40). -/
theorem hostAccess_busError {x : Transaction} {s : State} {k : BusErrorKind}
    (h : busTarget s.params x.address.toNat x.bytes = .error k) : hostAccess x s = .fault (.busError k) := by
  cases x <;> simp only [Transaction.address, Transaction.bytes] at h <;> simp only [hostAccess, h]

/-- A command either completes or meets an unwritten byte (R70, R80). -/
theorem decodeCommand_total (W : Nat) (unpack : List Byte → Int) (s : State) :
    (∃ t, decodeCommand W unpack s = .next t) ∨ decodeCommand W unpack s = .fault (.unwrittenByte .inBuf) := by
  unfold decodeCommand
  split
  · exact .inl ⟨_, rfl⟩
  · split
    · exact .inr rfl
    · exact .inl ⟨_, rfl⟩

/-- Config's parameters are legal, whatever they are (R6). -/
theorem params_legal : Config.params.legal := by
  have h1 := Config.inCapLessOne.isLt
  have h2 := Config.sampleCapLessOne.isLt
  unfold Params.legal Config.params
  simp only
  omega

/-- The reset state's buffers are in canonical form. -/
theorem reset_buffersWf (p : Params) : (State.resetWith p).buffersWf := by
  unfold State.buffersWf; simp [State.resetWith]

theorem stepN_succ_of_next {n : Nat} {s t : State} (h : step s = .next t) : stepN (n + 1) s = stepN n t := by
  conv => lhs; unfold stepN
  rw [h]

theorem stepN_succ_of_fault {n : Nat} {s : State} {r : Fault} (h : step s = .fault r) :
    stepN (n + 1) s = .fault r := by
  conv => lhs; unfold stepN
  rw [h]

end Sys2Proof.Machine
end

