-- ==== Sys2Proof/Laws/Unseen.lean ====
section
/-! SUPPORT. What the account of unseen outputs can do (R46, R96, R97): which bytes it hides after each update. -/

namespace Sys2Proof.Machine

@[simp] theorem Unseen.none_hides (b : Buffer) (a : Nat) : Unseen.none.hides b a = false := by cases b <;> rfl

@[simp] theorem Unseen.none_hidesRegister (r : HostReg) : Unseen.none.hidesRegister r = false := by cases r <;> rfl

/-- Accepting the same word again hides nothing more. -/
theorem Unseen.accept_accept (w : Word) (u : Unseen) : (u.accept w).accept w = u.accept w := by
  unfold Unseen.accept
  cases decodeWord w with
  | illegal why => rfl
  | command i => cases i <;> rfl

@[simp] theorem Unseen.wrote_count (b : Buffer) (a : Nat) (bs : List Byte) (u : Unseen) :
    (u.wrote b a bs).count = u.count := by
  cases b <;> simp only [Unseen.wrote]; split <;> rfl

@[simp] theorem Unseen.wrote_smp (b : Buffer) (a : Nat) (bs : List Byte) (u : Unseen) :
    (u.wrote b a bs).smp = u.smp := by
  cases b <;> simp only [Unseen.wrote]; split <;> rfl

@[simp] theorem Unseen.wrote_nrm (b : Buffer) (a : Nat) (bs : List Byte) (u : Unseen) :
    (u.wrote b a bs).nrm = u.nrm := by
  cases b <;> simp only [Unseen.wrote]; split <;> rfl

/-- What the host has written is defined to it; of the other bytes nothing changes (R96). -/
theorem Unseen.hides_wrote {b : Buffer} (hb : b ≠ .nrmBuf) (c : Buffer) (a x : Nat) (bs : List Byte) (u : Unseen) :
    (u.wrote b a bs).hides c x = if c = b ∧ a ≤ x ∧ x < a + bs.length then false else u.hides c x := by
  cases b with
  | nrmBuf => exact absurd rfl hb
  | inBuf => cases c <;> simp [Unseen.wrote, Unseen.hides]
  | smpBuf =>
    cases c with
    | inBuf => simp [Unseen.hides]
    | nrmBuf => simp [Unseen.hides]
    | smpBuf =>
      by_cases hs : u.smp = true
      · simp only [Unseen.wrote, hs, if_true, Unseen.hides, Memory.read_store, Bool.true_and, true_and]
        by_cases hx : a ≤ x ∧ x < a + bs.length
        · rw [if_pos hx, if_pos hx, List.getElem?_eq_getElem (show x - a < bs.length by omega)]; rfl
        · rw [if_neg hx, if_neg hx]
      · simp [Unseen.wrote, Unseen.hides, hs]

/-- Accepting a word forgets what the host has written since, or leaves it. -/
theorem Unseen.accept_since (w : Word) (u : Unseen) :
    (u.accept w).since = [] ∧ (u.accept w).smp = true ∨
      (u.accept w).since = u.since ∧ (u.accept w).smp = u.smp := by
  unfold Unseen.accept
  cases decodeWord w with
  | illegal why => exact .inr ⟨rfl, rfl⟩
  | command i => cases i <;> first | exact .inl ⟨rfl, rfl⟩ | exact .inr ⟨rfl, rfl⟩

/-- A host store keeps what is listed since in step with SMP_BUF. -/
theorem Unseen.wrote_since {u : Unseen} {smp : Memory} (hw : u.since.wf)
    (h : ∀ x ∈ u.since, smp.read x.1 = some x.2) (h0 : u.smp = false → u.since = []) (a : Nat) (bs : List Byte) :
    (u.wrote .smpBuf a bs).since.wf ∧
      ∀ x ∈ (u.wrote .smpBuf a bs).since, (smp.store a bs).read x.1 = some x.2 := by
  simp only [Unseen.wrote]
  by_cases hs : u.smp = true
  · rw [if_pos hs]
    refine ⟨Memory.store_wf a bs hw, fun x hx => ?_⟩
    have hr := (Memory.mem_iff_read (Memory.store_wf a bs hw) x).1 hx
    rw [Memory.read_store] at hr ⊢
    split
    · rwa [if_pos ‹_›] at hr
    · rw [if_neg ‹_›] at hr
      exact h x ((Memory.mem_iff_read hw x).2 hr)
  · rw [if_neg hs, h0 (by simpa using hs)]
    exact ⟨List.Pairwise.nil, by simp⟩

/-- Nothing of an access is hidden when no byte of it is. -/
theorem hiddenBytes_any_eq_false {b : Buffer} {a n : Nat} {s : State}
    (h : ∀ j, j < n → s.unseen.hides b (a + j) = false) : (hiddenBytes b a n s).any id = false := by
  simpa [hiddenBytes] using h

/-- An overlay is as long as the bytes it stands for. -/
theorem overlay_length {hidden : List Bool} {bs ds : List Byte} (h1 : hidden.length = bs.length)
    (h2 : ds.length = bs.length) : (overlay hidden bs ds).length = bs.length := by
  induction bs generalizing hidden ds with
  | nil => cases hidden <;> simp_all [overlay]
  | cons b bs ih =>
    cases hidden with
    | nil => simp at h1
    | cons x hs =>
      cases ds with
      | nil => simp at h2
      | cons d ds => simp [overlay, ih (by simpa using h1) (by simpa using h2)]

/-- A byte that is not hidden shows through. -/
theorem overlay_getElem? {hidden : List Bool} {bs ds : List Byte} (h1 : hidden.length = bs.length)
    (h2 : ds.length = bs.length) {j : Nat} (hj : hidden[j]? = some false) : (overlay hidden bs ds)[j]? = bs[j]? := by
  induction bs generalizing hidden ds j with
  | nil => cases hidden <;> simp_all
  | cons b bs ih =>
    cases hidden with
    | nil => simp at h1
    | cons x hs =>
      cases ds with
      | nil => simp at h2
      | cons d ds =>
        cases j with
        | zero => simp at hj; simp [overlay, hj]
        | succ j => simpa [overlay] using ih (by simpa using h1) (by simpa using h2) (by simpa using hj)

end Sys2Proof.Machine
end

