-- ==== Sys2Proof/Tests/Slice0.lean ====
section
/-! SUPPORT. Tests on the worked vectors of 95_test_vectors.md, and a witness for the hypotheses of every statement. -/

namespace Sys2Proof.Tests

open Sys2Proof.Machine

/-! ## Well-formedness: an ill-formed term for each check -/

theorem test_badwidth_must_not_be_supported :
    [1, 2, 3, 4, 8].all (fun w => !(Instr.decodeBadWidth (BitVec.ofNat 8 w)).wellFormed) = true := by decide

theorem test_badwidth_of_unsupported_is_well_formed :
    [0, 5, 6, 7, 9, 16, 255].all (fun w => (Instr.decodeBadWidth (BitVec.ofNat 8 w)).wellFormed) = true := by decide

/-! ## Decoding: the words of R53 and of section 2.4, bit by bit -/

theorem test_decode_i8 : decodeWord 0b00000000000000000000000100000001 = .command .decodeI8 := by decide

theorem test_decode_i16 : decodeWord 0b00000000000000000000001000000001 = .command .decodeI16 := by decide

theorem test_decode_i24 : decodeWord 0b00000000000000000000001100000001 = .command .decodeI24 := by decide

theorem test_decode_i32 : decodeWord 0b00000000000000000000010000000001 = .command .decodeI32 := by decide

theorem test_decode_i64 : decodeWord 0b00000000000000000000100000000001 = .command .decodeI64 := by decide

theorem test_decode_badwidth : decodeWord 0b00000000000000001111111100000001 = .command (.decodeBadWidth 255) := by decide

theorem test_decode_normalize : decodeWord 0b00000000000000000000000000000010 = .command .normalize := by decide

/-- The illegal rows of section 2.4. -/
theorem test_decode_illegal :
    [0x00000000, 0x00000102, 0x00000202, 0x0000FF02, 0x00000003, 0x0000000F, 0x00000011, 0x00010201, 0x80000002].all
      (fun w => (decodeTableWord 32 w).isNone) = true := by decide

/-- Four bytes are taken and the rest is handed back; fewer are refused. -/
theorem test_decode_bytes :
    decodeBytes [0x01, 0x02, 0x00, 0x00, 0xAA] = (.command .decodeI16, [0xAA]) ∧
      decodeBytes [0x01, 0x02, 0x00] = (.illegal .notOneWord, [0x01, 0x02, 0x00]) := by decide

/-! ## States for the tests -/

/-- The example parameters of 95_test_vectors.md. -/
def exampleParams : Params := { inCap := 4096, sampleCap := 1024, tieMode := .even }

/-- Reset, then a header and raw bytes in IN_BUF. -/
def decodeState (p : Params) (channels frames inLen : Word) (bytes : List Byte) : State :=
  { State.resetWith p with channels := channels, frames := frames, inLen := inLen, inBuf := cellsFrom 0 bytes }

/-- Reset, then samples in SMP_BUF with their number. -/
def normalizeState (p : Params) (samples : List Int) : State := writeSamples samples (State.resetWith p)

/-- Reset, then one host transaction to come. -/
def hostState (t : Transaction) : State := { State.resetWith exampleParams with script := [.host t] }

/-- The next state, if there is one. -/
def nextOf : Result → Option State
  | .next s => some s
  | .fault _ => none
  | .refused _ => none

/-- The fault, if there is one. -/
def faultOf : Result → Option Fault
  | .next _ => none
  | .fault f => some f
  | .refused _ => none

/-- STATUS, SAMPLE_COUNT and the first samples after a command. -/
def decodeView (n : Nat) (r : Result) : Option (Word × Word × List (Option Int)) :=
  (nextOf r).map (fun t => (t.status.word, t.sampleCount, (List.range n).map (smpRead t)))

/-- STATUS, MAXABS and the first patterns after a command. -/
def normalizeView (n : Nat) (r : Result) : Option (Word × Nat × List (Option Entry)) :=
  (nextOf r).map (fun t => (t.status.word, t.maxAbs.toNat, (List.range n).map t.nrmBuf.readEntry))

/-! ## Commands: sections 2.1 to 2.5 -/

theorem test_i8_values :
    decodeView 5 (exec .decodeI8 (decodeState exampleParams 1 5 5 [0x00, 0x7F, 0x80, 0xFF, 0x01])) =
      some (0x00000002, 5, [some 0, some 127, some (-128), some (-1), some 1]) := by decide

theorem test_i16_values :
    decodeView 3 (exec .decodeI16 (decodeState exampleParams 1 3 6 [0xFF, 0x7F, 0x00, 0x80, 0x01, 0x00])) =
      some (0x00000002, 3, [some 32767, some (-32768), some 1]) := by decide

theorem test_i24_values :
    decodeView 4 (exec .decodeI24 (decodeState exampleParams 2 2 12
        [0xFF, 0xFF, 0x7F, 0x00, 0x00, 0x80, 0x56, 0x34, 0x12, 0xAA, 0xAA, 0xAA])) =
      some (0x00000002, 4, [some 8388607, some (-8388608), some 1193046, some (-5592406)]) := by decide

theorem test_i32_values :
    decodeView 2 (exec .decodeI32 (decodeState exampleParams 1 2 8 [0x00, 0x00, 0x80, 0x3F, 0x00, 0x00, 0x00, 0x80])) =
      some (0x00000002, 2, [some 1065353216, some (-2147483648)]) := by decide

theorem test_i64_values :
    decodeView 1 (exec .decodeI64 (decodeState exampleParams 1 1 8 [0, 0, 0, 0, 0, 0, 0, 0x80])) =
      some (0x00000002, 1, [some (-9223372036854775808)]) := by decide

/-- The image of -128: RD32 SMP+0 and SMP+4 of section 2.1. -/
theorem test_i8_image :
    ((nextOf (exec .decodeI8 (decodeState exampleParams 1 1 1 [0x80]))).bind (fun t => t.smpBuf.readBytes 0 8)) =
      some [0x80, 0xFF, 0xFF, 0xFF, 0xFF, 0xFF, 0xFF, 0xFF] := by decide

/-- N = 2^32 exactly, with no wrap to 0 (section 2.3). -/
theorem test_i8_no_wrap :
    decodeView 0 (exec .decodeI8 (decodeState exampleParams 0x80000000 2 0 [])) = some (0x00010212, 0, []) := by decide

/-- Length 9 of 8 is EXCESS (section 2.3). -/
theorem test_i16_excess :
    decodeView 0 (exec .decodeI16 (decodeState exampleParams 1 4 9 [])) = some (0x00010312, 0, []) := by decide

/-- R = 8192 > IN_CAP is CAPACITY_ERROR (section 2.3). -/
theorem test_i64_capacity :
    decodeView 0 (exec .decodeI64 (decodeState exampleParams 1 1024 8192 [])) = some (0x00010042, 0, []) := by decide

/-- The width is checked before CHANNELS = 0 (section 2.3). -/
theorem test_badwidth_before_channels :
    decodeView 0 (exec (.decodeBadWidth 5) (decodeState exampleParams 0 4 0 [])) = some (0x00010112, 0, []) := by decide

/-- The example of R72 and of section 2.5. -/
theorem test_normalize_example :
    normalizeView 4 (exec .normalize (normalizeState exampleParams [100, -200, 300, -400])) =
      some (0x00000002, 400, [some 0x3FD0000000000000, some 0xBFE0000000000000, some 0x3FE8000000000000,
        some 0xBFF0000000000000]) := by decide

/-- All samples zero: DIVIDE_BY_ZERO (L1.10). -/
theorem test_normalize_zero :
    normalizeView 1 (exec .normalize (normalizeState exampleParams [0, 0, 0])) = some (0x00010022, 0, [none]) := by decide

/-- The ties of section 2.5 under EVEN, with 0.0002 and -0.0, and under AWAY, with 0.0003 and -0.0001. -/
theorem test_tie_modes :
    [(-1 : Int), 5].map (normalizeSample .even 20000) = [0x8000000000000000, 0x3F2A36E2EB1C432D] ∧
      [(-1 : Int), 5].map (normalizeSample .away 20000) = [0xBF1A36E2EB1C432D, 0x3F33A92A30553261] := by decide

/-- Quotients that do not terminate, rounded up and down (section 2.5). -/
theorem test_binary64_patterns :
    [(1 : Int), -2, 3].map (normalizeSample .even 3) = [0x3FD554C985F06F69, 0xBFE5559B3D07C84B, 0x3FF0000000000000] ∧
      [(1 : Int), -3, 4999].map (normalizeSample .even 10000) =
        [0x3F1A36E2EB1C432D, 0xBF33A92A30553261, 0x3FDFFE5C91D14E3C] := by decide

/-! ## The host and the engine: sections 2.4 and 2.6 -/

/-- STATUS right after an accepted CTRL write from reset is 0x00000001. -/
theorem test_accept :
    (nextOf (step (hostState (.write 0x00000000 4 0x00000002)))).map (fun t => (t.status.word, t.engine)) =
      some (0x00000001, .busy 0x00000002) := by decide

theorem test_illegal_command :
    (nextOf (step (State.reset.withFetchWord 32 0x00000102))).map (fun t => (t.status.word, t.engine)) =
      some (0x00010032, .idle) := by decide

/-- DECODE.I8 as the first command after reset: CHANNELS = 0. -/
theorem test_first_command_decode :
    (nextOf (step (State.reset.withFetchWord 32 0x00000101))).map (fun t => t.status.word) = some 0x00010412 := by decide

/-- NORMALIZE as the first command after reset: SAMPLE_COUNT = 0. -/
theorem test_first_command_normalize :
    (nextOf (step (State.reset.withFetchWord 32 0x00000002))).map (fun t => t.status.word) = some 0x00010022 := by decide

/-- The bus errors of section 2.6. -/
theorem test_bus_errors :
    [hostState (.write 0x10000001 2 0), hostState (.write 0x00000008 1 0), hostState (.read 0x00000028 4),
        hostState (.write 0x30000000 4 0), hostState (.read 0x10001000 4)].map (fun s => faultOf (step s)) =
      [some (.busError .misaligned), some (.busError .width), some (.busError .unmappedOffset),
        some (.busError .readOnlyBuffer), some (.busError .beyondCapacity)] := by decide

theorem test_read_unwritten :
    faultOf (step (hostState (.read 0x10000000 4))) = some (.unwrittenByte .inBuf) := by decide

/-- WR32 IN+0, 0x11223344, then HostInRead(2, 2) and HostInRead(0, 1) (section 2.6). -/
theorem test_mixed_widths :
    ((nextOf (step (hostState (.write 0x10000000 4 0x11223344)))).bind
        (fun t => nextOf (hostBufRead .inBuf 2 2 t))).map (fun t => t.readLog) = some [0x1122] ∧
      ((nextOf (step (hostState (.write 0x10000000 4 0x11223344)))).bind
        (fun t => nextOf (hostBufRead .inBuf 0 1 t))).map (fun t => t.readLog) = some [0x44] := by decide

theorem test_capacity_registers :
    (nextOf (step (hostState (.read 0x00000020 4)))).map (fun t => t.readLog) = some [0x00001000] ∧
      (nextOf (step (hostState (.read 0x00000024 4)))).map (fun t => t.readLog) = some [0x00000400] := by decide

/-- The forms of R59 as programs P1 and P4 of section 3 write them out. -/
theorem test_program_forms :
    writeReg .inLen 8 = .host (.write 0x00000010 4 0x00000008) ∧ command .decodeI16 = .host (.write 0x00000000 4 0x00000201) ∧
      writeSmp64 8 (BitVec.ofInt 64 (-1)) =
        [.host (.write 0x20000008 4 0xFFFFFFFF), .host (.write 0x2000000C 4 0xFFFFFFFF)] ∧
      readNrm64 16 = [.host (.read 0x30000010 4), .host (.read 0x30000014 4)] := by decide

/-! ## States for the witnesses -/

/-- The smallest parameters that keep every clause apart. -/
def smallParams : Params := { inCap := 16, sampleCap := 2, tieMode := .even }

/-- Reset, with events to come. -/
def idleState (es : List Event) : State := { State.resetWith smallParams with script := es }

/-- The command `w` accepted from reset, with events to come. -/
def busyState (w : Word) (es : List Event) : State := { acceptCommand w (State.resetWith smallParams) with script := es }

/-- Byte `a` of the raw samples the witnesses use. -/
def rawByte (a : Nat) : Byte := BitVec.ofNat 8 (0x7F + 3 * a)

/-- Two samples of width `W`, all raw bytes written but `missing` last ones. IN_CAP is R and SAMPLE_CAP is N. -/
def fullDecode (W missing : Nat) : State :=
  decodeState { inCap := 2 * W, sampleCap := 2, tieMode := .even } 1 2 (BitVec.ofNat 32 (2 * W))
    ((List.range (2 * W - missing)).map rawByte)

/-- A header with `frames` frames of one channel and a byte length, on legal parameters. -/
def headerState (inCap sampleCap : Nat) (channels frames inLen : Nat) : State :=
  decodeState { inCap := inCap, sampleCap := sampleCap, tieMode := .even } (BitVec.ofNat 32 channels)
    (BitVec.ofNat 32 frames) (BitVec.ofNat 32 inLen) []

/-- The two numbers a clause of DecodeRule compares: N and R. -/
def sampleNumber (s : State) : Nat := s.frames.toNat * s.channels.toNat

/-- The premises of every clause of DecodeRule for width `W`, each at its boundary: CHANNELS 0; L = R - 1; L = R + 1;
R = IN_CAP + 1; N = SAMPLE_CAP + 1; the last byte unwritten; R = IN_CAP and N = SAMPLE_CAP with every byte written. -/
def decodeClauses (W : Nat) : Bool :=
  let zero := headerState 16 2 0 1 0
  let short := headerState 16 2 1 2 (2 * W - 1)
  let long := headerState 16 2 1 2 (2 * W + 1)
  let big := headerState (2 * W - 1) 2 1 2 (2 * W)
  let many := headerState (3 * W) 2 1 3 (3 * W)
  let hole := fullDecode W 1
  let good := fullDecode W 0
  [zero, short, long, big, many, hole, good].all (fun s => decide s.params.legal) &&
    decide (zero.channels = 0) &&
    decide (short.channels ≠ 0 ∧ short.inLen.toNat + 1 = sampleNumber short * W) &&
    decide (long.channels ≠ 0 ∧ long.inLen.toNat = sampleNumber long * W + 1) &&
    decide (big.channels ≠ 0 ∧ big.inLen.toNat = sampleNumber big * W ∧ big.params.inCap + 1 = sampleNumber big * W ∧
      sampleNumber big = big.params.sampleCap) &&
    decide (many.channels ≠ 0 ∧ many.inLen.toNat = sampleNumber many * W ∧ many.params.inCap = sampleNumber many * W ∧
      many.params.sampleCap + 1 = sampleNumber many) &&
    [hole, good].all (fun s => decide (s.channels ≠ 0 ∧ s.inLen.toNat = sampleNumber s * W ∧
      sampleNumber s * W = s.params.inCap ∧ sampleNumber s = s.params.sampleCap)) &&
    decide (2 * W - 1 < sampleNumber hole * W ∧ hole.inBuf.read (2 * W - 1) = none) &&
    (List.range (sampleNumber good * W)).all (fun a => decide (good.inBuf.read a = some (rawByte a)))

/-- Two samples, five and its opposite: the sequence of most witnesses of NORMALIZE. -/
def fiveState : State := normalizeState smallParams [5, -5]

/-! ## Witnesses: encoding and the step -/

theorem witness_DecodeOfEncode :
    [Instr.decodeI8, .decodeI16, .decodeI24, .decodeI32, .decodeI64, .decodeBadWidth 0, .decodeBadWidth 255,
      .normalize].all (fun i => i.wellFormed) = true := by decide

theorem witness_EncodeOfDecode :
    decodeWord 0x0000FF01 = .command (.decodeBadWidth 255) ∧ decodeWord 0x00000801 = .command .decodeI64 := by decide

theorem witness_OtherWordsAreIllegalCommand : ¬ ∃ i : Instr, i.wellFormed = true ∧ encode i = 0x00000102 := by
  rintro ⟨i, -, he⟩
  cases i with
  | decodeBadWidth w =>
    have h := congrArg opField he
    rw [encode, opField_commandWord] at h
    exact absurd h (by decide)
  | _ => exact absurd he (by decide)

theorem witness_StepRunsDecodedCommand :
    decodeWord 0x00000002 = .command .normalize ∧
      ([.engine, .reset] : List Event) = .engine :: [.reset] ∧
      (busyState 0x00000002 [.engine, .reset]).script = .engine :: [.reset] ∧
      (busyState 0x00000002 []).script = [] ∧
      (busyState 0x00000002 [.poll 0]).script = .poll 0 :: [] ∧
      ∀ es, (busyState 0x00000002 es).engine = .busy 0x00000002 := by
  exact ⟨by decide, rfl, rfl, rfl, rfl, fun _ => rfl⟩

/-! ## Witnesses: the unpacker -/

theorem witness_DecodeI8Rule : decodeClauses 1 = true := by decide

theorem witness_DecodeI16Rule : decodeClauses 2 = true := by decide

theorem witness_DecodeI24Rule : decodeClauses 3 = true := by decide

theorem witness_DecodeI32Rule : decodeClauses 4 = true := by decide

theorem witness_DecodeI64Rule : decodeClauses 8 = true := by decide

/-- A successful DECODE.I64 with a byte 15 of 16. -/
theorem witness_DecodeI64KeepsBytes :
    ((nextOf (exec .decodeI64 (fullDecode 8 0))).map (fun t => t.status.errCode)) = some .ok ∧
      15 < (fullDecode 8 0).frames.toNat * (fullDecode 8 0).channels.toNat * 8 := by decide

theorem witness_DecodeBadWidthRule :
    [(0x00000001 : Word), 0x00000501, 0x00000901, 0x0000FF01].all (fun w =>
      decide (w &&& 0xFFFF00FF = 0x00000001 ∧ supportedWidth (w.extractLsb' 8 8) = false)) = true := by decide

/-- A success and an error of each DECODE.Ix. -/
theorem witness_DecodeFrame :
    [(Instr.decodeI8, 1), (.decodeI16, 2), (.decodeI24, 3), (.decodeI32, 4), (.decodeI64, 8)].all (fun x =>
      decide ((nextOf (exec x.1 (fullDecode x.2 0))).map (fun t => t.status.errCode) = some .ok) &&
      decide ((nextOf (exec x.1 (headerState 16 2 0 1 0))).map (fun t => t.status.errCode) = some .formatError)) =
        true := by decide

/-! ## Witnesses: the normalizer -/

/-- Each clause: N = SAMPLE_CAP + 1; N = SAMPLE_CAP with the last byte unwritten; all samples zero at N = SAMPLE_CAP and
N = 0; and samples with a largest magnitude. -/
theorem witness_NormalizeRule :
    smallParams.legal ∧
      smallParams.sampleCap + 1 = (normalizeState smallParams [1, 2, 3]).sampleCount.toNat ∧
      (State.resetWith smallParams).sampleCount.toNat = 0 ∧
      ({ normalizeState smallParams [1] with sampleCount := 2 } : State).smpBuf.read 15 = none ∧
      (∀ i, i < 2 → smpRead (normalizeState smallParams [0, 0]) i = some 0) ∧
      fiveState.sampleCount.toNat = smallParams.sampleCap ∧
      (∀ i, i < 2 → smpRead fiveState i = some (if i = 0 then 5 else -5)) := by decide

/-- A success, a DIVIDE_BY_ZERO and a CAPACITY_ERROR. -/
theorem witness_NormalizeFrame :
    [fiveState, normalizeState smallParams [0, 0], normalizeState smallParams [1, 2, 3]].map
      (fun s => (nextOf (exec .normalize s)).map (fun t => t.status.errCode)) =
        [some .ok, some .divideByZero, some .capacityError] := by decide

/-- A tie under each rule: 1/2. -/
theorem witness_RoundTIsNearest :
    (0 < 2) ∧ 2 * ((1 : Int) - roundT .even 1 2 * 2).natAbs = 2 ∧ 2 * ((1 : Int) - roundT .away 1 2 * 2).natAbs = 2 := by
  decide

theorem witness_RoundTOfSampleInRange :
    0 < 2 ^ 63 ∧ (-(2 ^ 63 : Int)).natAbs ≤ 2 ^ 63 ∧ 0 < 1 ∧ (0 : Int).natAbs ≤ 1 := by decide

theorem witness_EncNormIsNearestBinary64 :
    [(-10000 : Int), -1, 0, 1, 10000].all (fun k => decide (k.natAbs ≤ 10000)) = true := by decide

/-- The samples of both signs, each of magnitude MAXABS. -/
theorem witness_MaximumNormalizesToOne :
    (nextOf (exec .normalize fiveState)).map (fun t => (t.status.errCode, t.maxAbs.toNat)) = some (.ok, 5) ∧
      1 < fiveState.sampleCount.toNat ∧ smpRead fiveState 0 = some 5 ∧ smpRead fiveState 1 = some (-5) := by decide

/-- A negative sample, a zero and a negative sample that rounds to zero. -/
theorem witness_NormalizedRangeAndSign :
    (nextOf (exec .normalize (normalizeState exampleParams [-1, 0, 20001]))).map (fun t => t.status.errCode) = some .ok ∧
      2 < (normalizeState exampleParams [-1, 0, 20001]).sampleCount.toNat ∧
      smpRead (normalizeState exampleParams [-1, 0, 20001]) 0 = some (-1) ∧
      smpRead (normalizeState exampleParams [-1, 0, 20001]) 1 = some 0 := by decide

/-- 5, -5 and three times as much, each with a success. -/
theorem witness_NormalizeIsScaleInvariant :
    (normalizeState smallParams [15, -15]).params = fiveState.params ∧
      (normalizeState smallParams [15, -15]).sampleCount = fiveState.sampleCount ∧
      (∀ i, i < 2 → smpRead fiveState i = some (if i = 0 then 5 else -5) ∧
        smpRead (normalizeState smallParams [15, -15]) i = some (3 * (if i = 0 then 5 else -5))) ∧
      [fiveState, normalizeState smallParams [15, -15]].all (fun s =>
        decide ((nextOf (exec .normalize s)).map (fun t => t.status.errCode) = some .ok)) = true := by decide

/-- The same samples with another header, MAXABS and ERR_SEEN. -/
theorem witness_NormalizeIgnoresOtherState :
    let other : State := { fiveState with channels := 7, maxAbs := 9, status := (errorState .illegalCommand .none fiveState).status }
    other ≠ fiveState ∧ other.params = fiveState.params ∧ other.sampleCount = fiveState.sampleCount ∧
      (∀ i, i < 2 → smpRead other i = smpRead fiveState i) ∧
      (nextOf (exec .normalize fiveState)).map (fun t => t.status.errCode) = some .ok := by decide

/-! ## Witnesses: completion and errors -/

/-- A success, each error code that occurs, and the command run again on what it left. -/
theorem witness_CompletionReportsResult :
    [runCommand 0x00000002 fiveState, runCommand 0x00000101 (State.resetWith smallParams),
        runCommand 0x00000002 (State.resetWith smallParams), runCommand 0x00000102 fiveState,
        runCommand 0x00000002 (normalizeState smallParams [1, 2, 3])].map
      (fun r => (nextOf r).map (fun t => t.status.errCode)) =
        [some .ok, some .formatError, some .divideByZero, some .illegalCommand, some .capacityError] := by decide

/-- Every error of R85 that a command reports, and the two commands that meet an unwritten byte. -/
theorem witness_FirstErrorIsReported :
    [runCommand 0x00000012 fiveState, runCommand 0x00000501 fiveState, runCommand 0x00000801 (headerState 16 2 0 1 1),
        runCommand 0x00000801 (headerState 16 2 1 2 15), runCommand 0x00000801 (headerState 16 2 1 2 17),
        runCommand 0x00000801 (headerState 15 2 1 2 16), runCommand 0x00000002 (normalizeState smallParams [1, 2, 3]),
        runCommand 0x00000002 (State.resetWith smallParams), runCommand 0x00000002 fiveState].map
      (fun r => (nextOf r).map (fun t => (t.status.errCode, t.status.fmtCause))) =
        [some (.illegalCommand, .none), some (.formatError, .unsupportedWidth), some (.formatError, .zeroChannels),
          some (.formatError, .truncated), some (.formatError, .excess), some (.capacityError, .none),
          some (.capacityError, .none), some (.divideByZero, .none), some (.ok, .none)] ∧
      faultOf (runCommand 0x00000801 (fullDecode 8 1)) = some (.unwrittenByte .inBuf) ∧
      faultOf (runCommand 0x00000002 { fiveState with smpBuf := [] }) = some (.unwrittenByte .smpBuf) := by decide

/-- DIVIDE_BY_ZERO after a nonzero MAXABS, and ILLEGAL_COMMAND. -/
theorem witness_ErrorsArePrecise :
    let s : State := { State.resetWith smallParams with maxAbs := 5 }
    [runCommand 0x00000002 s, runCommand 0x00000102 s].map
      (fun r => (nextOf r).map (fun t => (t.status.errCode, t.maxAbs))) =
        [some (.divideByZero, 0), some (.illegalCommand, 5)] := by decide

theorem witness_CommandsAreRepeatable :
    (nextOf (runCommand 0x00000101 (fullDecode 1 0))).map (fun t => t.status.errCode) = some .ok ∧
      (nextOf (runCommand 0x00000002 fiveState)).map (fun t => t.status.errCode) = some .ok := by decide

/-- A CTRL write while Idle; a Busy engine that completes; DONE cleared by a CTRL write and by a reset; a STATUS read. -/
theorem witness_DoneFollowsTheCommand :
    let done : Status := { busy := false, done := true, errCode := .ok, fmtCause := .none, errSeen := false }
    (idleState [.host (.write 0x00000000 4 0x00000002)]).engine = .idle ∧
      (nextOf (step (busyState 0x00000002 [.engine]))).map (fun t => (t.engine, t.status.done)) = some (.idle, true) ∧
      (nextOf (step { idleState [.host (.write 0x00000000 4 0x00000002)] with status := done })).map
        (fun t => t.status.done) = some false ∧
      (nextOf (step { idleState [.reset] with status := done })).map (fun t => t.status.done) = some false ∧
      (idleState [.host (.read 0x00000004 4)]).script = .host (.read 0x00000004 4) :: [] := by decide

/-- ERR_SEEN kept by a success, set by an error, and found clear before it. -/
theorem witness_ErrSeenIsSticky :
    let seen : State := { fiveState with engine := .busy 0x00000002, status := { Status.reset with busy := true, errSeen := true } }
    (nextOf (step seen)).map (fun t => (t.status.errCode, t.status.errSeen)) = some (.ok, true) ∧
      (nextOf (step (busyState 0x00000003 []))).map (fun t => (t.engine, t.status.errCode, t.status.errSeen)) =
        some (.idle, .illegalCommand, true) ∧
      (busyState 0x00000003 []).status.errSeen = false := by decide

theorem witness_ErrSeenIsSticky_noReset : ∀ rest, (busyState 0x00000003 []).script ≠ .reset :: rest := by
  intro rest; simp [busyState]

/-- The engine's turn on an empty script and at the head of one, and a command that meets an unwritten byte. -/
theorem witness_BusyEngineCompletes :
    (busyState 0x00000002 []).engine = .busy 0x00000002 ∧ (busyState 0x00000002 []).script = [] ∧
      (busyState 0x00000002 [.engine]).script = .engine :: [] ∧
      faultOf (step { busyState 0x00000002 [] with sampleCount := 1 }) = some (.unwrittenByte .smpBuf) := by decide

theorem witness_PollEnds :
    (busyState 0x00000002 [.poll 0]).engine = .busy 0x00000002 ∧
      (busyState 0x00000002 [.poll 0]).script = .poll 0 :: [] ∧
      (busyState 0x00000002 [.poll 2, .reset]).script = .poll 2 :: [.reset] := by decide

theorem witness_LatencyChangesNoResult :
    (busyState 0x00000002 [.poll 2]).engine = .busy 0x00000002 ∧ (busyState 0x00000002 [.poll 2]).script = .poll 2 :: [] ∧
      (nextOf (runCommand 0x00000002 (busyState 0x00000002 [.poll 2]))).map (fun t => t.status.errCode) =
        some .divideByZero := by decide

/-! ## Witnesses: the host -/

theorem witness_CtrlWriteStartsCommand :
    (idleState [.host (.write 0x00000000 4 0xFFFFFFFF)]).engine = .idle ∧
      (idleState [.host (.write 0x00000000 4 0xFFFFFFFF)]).script = .host (.write 0x00000000 4 0xFFFFFFFF) :: [] ∧
      (busyState 0x00000002 [.host (.write 0x00000000 4 0)]).engine = .busy 0x00000002 ∧
      (busyState 0x00000002 [.host (.write 0x00000000 4 0)]).script = .host (.write 0x00000000 4 0) :: [] ∧
      (idleState [.host (.read 0x00000000 4)]).script = .host (.read 0x00000000 4) :: [] := by decide

/-- Every register, with the largest value. -/
theorem witness_RegisterWriteRights :
    [(0x00 : Word), 0x04, 0x08, 0x0C, 0x10, 0x14, 0x18, 0x1C, 0x20, 0x24].all (fun off =>
      decide ((idleState [.host (.write off 4 0xFFFFFFFF)]).engine = .idle ∧
        (idleState [.host (.write off 4 0xFFFFFFFF)]).script = .host (.write off 4 0xFFFFFFFF) :: [])) = true := by decide

/-- Every register with every output seen, and one that is no engine output while the engine is Busy. -/
theorem witness_RegisterReadValues :
    [(0x00 : Word), 0x04, 0x08, 0x0C, 0x10, 0x14, 0x18, 0x1C, 0x20, 0x24].all (fun off =>
      decide ((idleState [.host (.read off 4)]).engine = .idle ∧ (idleState [.host (.read off 4)]).unseen.count = false ∧
        (idleState [.host (.read off 4)]).unseen.nrm = false ∧
        (idleState [.host (.read off 4)]).script = .host (.read off 4) :: [])) = true ∧
      (0x08 : Word) ≠ 0x14 ∧ (0x08 : Word) ∉ [(0x18 : Word), 0x1C] ∧
      (busyState 0x00000002 [.host (.read 0x08 4)]).script = .host (.read 0x08 4) :: [] := by
  decide

theorem witness_CapacitiesAreConstant :
    (nextOf (step (idleState [.reset]))).isSome = true ∧
      (idleState [.host (.read 0x20 4)]).script = .host (.read 0x20 4) :: [] ∧
      (idleState [.host (.read 0x24 4)]).script = .host (.read 0x24 4) :: [] ∧
      (idleState [.host (.write 0x20 4 1)]).script = .host (.write 0x20 4 1) :: [] ∧
      (idleState [.host (.write 0x24 4 1)]).script = .host (.write 0x24 4 1) :: [] := by decide

/-- The last bytes of each buffer the host may write, at every size. -/
theorem witness_BufferWritesAreLittleEndian :
    smallParams.legal ∧ goodAccess smallParams .inBuf 12 4 ∧ goodAccess smallParams .inBuf 14 2 ∧
      goodAccess smallParams .smpBuf 15 1 ∧ Buffer.inBuf ≠ .nrmBuf ∧ Buffer.smpBuf ≠ .nrmBuf ∧
      (idleState [writeBuf .inBuf 12 4 0x11223344]).engine = .idle ∧
      (idleState [writeBuf .inBuf 12 4 0x11223344]).script = .host (.write (busAddress .inBuf 12) 4 0x11223344) :: [] := by
  decide

/-- Written bytes of IN_BUF; of SMP_BUF, seen; and an unwritten byte of NRM_BUF. -/
theorem witness_BufferReadsAreLittleEndian :
    let s : State := { fullDecode 8 0 with script := [readBuf .inBuf 12 4] }
    s.params.legal ∧ goodAccess s.params .inBuf 12 4 ∧ s.script = .host (.read (busAddress .inBuf 12) 4) :: [] ∧
      (∀ j, j < 4 → (bufferOf .inBuf s).read (12 + j) = some (rawByte (12 + j)) ∧ s.unseen.hides .inBuf (12 + j) = false) ∧
      goodAccess smallParams .smpBuf 14 2 ∧ fiveState.engine = .idle ∧
      (∀ j, j < 2 → (bufferOf .smpBuf fiveState).read (14 + j) = some 0xFF ∧
        fiveState.unseen.hides .smpBuf (14 + j) = false) ∧
      goodAccess smallParams .nrmBuf 0 1 ∧ (bufferOf .nrmBuf fiveState).read 0 = none := by decide

/-- A write and a read of SAMPLE_COUNT, and of the last bytes of each buffer the host may write. -/
theorem witness_HostWritesAreVisible :
    smallParams.legal ∧ goodAccess smallParams .smpBuf 12 4 ∧ goodAccess smallParams .inBuf 15 1 ∧
      [[writeReg .sampleCount 7, readReg .sampleCount], [writeBuf .smpBuf 12 4 9, readBuf .smpBuf 12 4],
        [writeBuf .inBuf 15 1 9, readBuf .inBuf 15 1]].all (fun es =>
          decide ((idleState es).engine = .idle ∧ (idleState es).script = es)) = true := by decide

/-- One access of each kind: one byte beyond each buffer, an unlisted offset, the two gaps between windows, NRM. -/
theorem witness_BusErrors :
    smallParams.legal ∧ (16 < 0x10000000 ∧ capacityOf smallParams .inBuf < 16 + 1) ∧
      capacityOf smallParams .smpBuf < 16 + 1 ∧ capacityOf smallParams .nrmBuf < 14 + 4 ∧
      (0x28 : Word) ∉ [(0x00 : Word), 0x04, 0x08, 0x0C, 0x10, 0x14, 0x18, 0x1C, 0x20, 0x24] ∧
      (0x100 ≤ (0x100 : Word).toNat ∧ (0x0FFFFFFF : Word).toNat < 0x10000000) ∧
      0x40000000 ≤ (0x40000000 : Word).toNat ∧
      (0x30000000 ≤ (busAddress .nrmBuf 0).toNat ∧ (busAddress .nrmBuf 0).toNat < 0x40000000) := by decide

/-- Sizes and addresses on both sides of the rule. -/
theorem witness_WidthAndAlignmentErrors :
    let bad := [Transaction.write 0x08 1 0, .write 0x08 2 0, .read 0x08 8, .read 0x0A 4]
    let badBuffer := [Transaction.write 0x10000000 8 0, .read 0x10000000 3, .read 0x20000001 2, .read 0x30000002 4]
    bad.all (fun x => decide (x.address.toNat < 0x100 ∧ (x.bytes ≠ 4 ∨ x.address.toNat % 4 ≠ 0))) = true ∧
      badBuffer.all (fun x => decide (0x10000000 ≤ x.address.toNat ∧
        ((x.bytes ≠ 1 ∧ x.bytes ≠ 2 ∧ x.bytes ≠ 4) ∨ x.address.toNat % x.bytes ≠ 0))) = true ∧
      (bad ++ badBuffer).all (fun x => decide ((idleState [.host x]).script = .host x :: [])) = true := by decide

/-- Each register and buffer, with the engine Busy. -/
theorem witness_WritesWhileBusy :
    smallParams.legal ∧ goodAccess smallParams .inBuf 15 1 ∧ goodAccess smallParams .smpBuf 12 4 ∧
      [writeReg .ctrl 0, writeReg .sampleCount 1, writeReg .status 1, writeReg .sampleCap 1, writeBuf .inBuf 15 1 0,
        writeBuf .smpBuf 12 4 0].all (fun e =>
          decide ((busyState 0x00000002 [e]).engine = .busy 0x00000002 ∧ (busyState 0x00000002 [e]).script = e :: [])) =
        true ∧
      (idleState [writeBuf .nrmBuf 0 4 0]).script = .host (.write (busAddress .nrmBuf 0) 4 0) :: [] ∧
      0x0FFFFFFF < 0x10000000 := by decide

/-- A Busy state with written input, and an access for each clause. -/
theorem witness_ReadsWhileBusy :
    let s : State := { acceptCommand 0x00000801 (fullDecode 8 0) with script := [readBuf .inBuf 14 2] }
    s.params.legal ∧ s.engine = .busy 0x00000801 ∧ goodAccess s.params .inBuf 14 2 ∧
      s.script = .host (.read (busAddress .inBuf 14) 2) :: [] ∧ s.inBuf.readBytes 14 2 = some [rawByte 14, rawByte 15] ∧
      goodAccess s.params .smpBuf 15 1 ∧ goodAccess s.params .nrmBuf 12 4 ∧
      (busyState 0x00000801 [readReg .status]).script = .host (.read 0x04 4) :: [] ∧
      (busyState 0x00000801 [readReg .maxAbsHi]).script = .host (.read 0x1C 4) :: [] := by decide

/-! ## What the host has seen -/

/-- Samples, MAXABS and outputs in place, and the last command, a NORMALIZE of 5 and -5, not seen to complete. -/
def unseenNormalize (es : List Event) : State :=
  match exec .normalize (acceptCommand 0x00000002 fiveState) with
  | .next t => { t with script := es }
  | .fault _ => fiveState
  | .refused _ => fiveState

/-- The same with the last command a DECODE.I64 after a NORMALIZE whose completion was seen. -/
def unseenDecode (es : List Event) : State :=
  { unseenNormalize es with unseen := Unseen.none.accept 0x00000801 }

/-- An unwritten byte of an output buffer faults with the engine Idle, seen or not (R27, R103). -/
theorem test_unseen_unwritten_faults :
    faultOf (hostBufRead .nrmBuf 0 4 { unseenNormalize [] with nrmBuf := [] }) = some (.unwrittenByte .nrmBuf) := by decide

/-- An unpolled NORMALIZE hides MAXABS and NRM_BUF and not SMP_BUF or SAMPLE_COUNT; an unpolled DECODE the other way
(R97). -/
theorem test_outputs_are_per_command :
    (nextOf (hostBufRead .smpBuf 0 4 (unseenNormalize []))).map (fun t => (t.readLog, t.draws)) = some ([5], 0) ∧
      (nextOf (hostRegRead .maxAbsLo (unseenNormalize []))).map (fun t => t.draws) = some 1 ∧
      (nextOf (hostRegRead .maxAbsLo (unseenDecode []))).map (fun t => (t.readLog, t.draws)) = some ([5], 0) ∧
      (nextOf (hostBufRead .smpBuf 0 4 (unseenDecode []))).map (fun t => t.draws) = some 1 := by decide

/-- A host write after an unpolled DECODE is visible to the next read (R96). -/
theorem test_own_write_is_visible :
    (nextOf ((nextOf (hostBufWrite .smpBuf 4 4 0x11223344 (unseenDecode []))).elim (.fault .hostWriteWhileBusy)
      (hostBufRead .smpBuf 6 2))).map (fun t => (t.readLog, t.draws)) = some ([0x1122], 0) := by decide

/-- A STATUS read that shows DONE, and one that shows BUSY. -/
theorem witness_StatusReadAcquires :
    let fresh := unseenNormalize [readReg .status]
    fresh.unseen ≠ Unseen.none ∧ fresh.status.busy = false ∧ fresh.status.done = true ∧
      fresh.script = .host (.read 0x04 4) :: [] ∧ (busyState 0x00000002 [readReg .status]).status.busy = true ∧
      (busyState 0x00000002 [readReg .status]).script = .host (.read 0x04 4) :: [] := by decide

/-- A word of each kind, accepted while Idle. -/
theorem witness_AcceptanceHidesItsOutputs :
    [(0x00000101 : Word), 0x00000801, 0x00000002, 0x00000501, 0x00000102].all (fun w =>
      decide ((idleState [writeReg .ctrl w]).engine = .idle ∧
        (idleState [writeReg .ctrl w]).script = .host (.write 0x00 4 w) :: [])) = true ∧
      (0x00000501 : Word) ∉ [(0x00000101 : Word), 0x00000201, 0x00000301, 0x00000401, 0x00000801, 0x00000002] := by decide

/-- An unseen SAMPLE_COUNT, MAXABS and SMP_BUF, the last with the low half written by the host since. -/
theorem witness_UnseenOutputReads :
    let s : State := { unseenDecode [readBuf .smpBuf 4 4] with unseen := (unseenDecode []).unseen.wrote .smpBuf 4 [0, 0] }
    s.params.legal ∧ s.engine = .idle ∧ s.unseen.count = true ∧ (unseenNormalize []).unseen.nrm = true ∧
      (unseenNormalize []).engine = .idle ∧ goodAccess s.params .smpBuf 4 4 ∧
      s.script = .host (.read (busAddress .smpBuf 4) 4) :: [] ∧
      (∀ j, j < 4 → (bufferOf .smpBuf s).read (4 + j) = some 0) ∧
      s.unseen.hides .smpBuf (4 + 1) = false ∧ s.unseen.hides .smpBuf (4 + 2) = true := by decide

/-- A step that leaves unseen outputs so, one that shows DONE, an own write and a reset. -/
theorem witness_OnlyDoneOrOwnWriteMakesSeen :
    (unseenDecode []).unseen.count = true ∧ (unseenDecode []).unseen.hides .smpBuf 4 = true ∧
      (unseenNormalize []).unseen.nrm = true ∧
      [[], [readReg .status], [writeBuf .smpBuf 4 4 0], [writeReg .sampleCount 1], [Event.reset]].map (fun es =>
        (nextOf (step (unseenDecode es))).map (fun t => (t.unseen.count, t.unseen.hides .smpBuf 4))) =
        [some (true, true), some (false, false), some (true, false), some (false, true), some (false, false)] := by decide

/-- POLL with DONE = 1 and with DONE = 0. -/
theorem witness_PollWhileIdle :
    (unseenNormalize [.poll 3]).engine = .idle ∧ (unseenNormalize [.poll 3]).script = .poll 3 :: [] ∧
      (unseenNormalize [.poll 3]).status.showsDone = true ∧ (idleState [.poll 3]).engine = .idle ∧
      (idleState [.poll 3]).script = .poll 3 :: [] ∧ (idleState [.poll 3]).status.showsDone = false := by decide

/-! ## Witnesses: reset and invariants -/

/-- The reset input with the engine Busy, and with it Idle after a command. -/
theorem witness_ResetFromEveryState :
    (busyState 0x00000002 [.reset, .engine]).script = .reset :: [.engine] ∧
      (unseenNormalize [.reset]).script = .reset :: [] ∧ (unseenNormalize [.reset]).engine = .idle := by decide

/-- The invariant holds of a Busy state and of what its step gives. -/
theorem witness_StepKeepsInvariant :
    (busyState 0x00000002 []).Inv ∧ (nextOf (step (busyState 0x00000002 []))).isSome = true ∧
      (unseenDecode [writeBuf .smpBuf 4 4 0]).Inv ∧
      (nextOf (step (unseenDecode [writeBuf .smpBuf 4 4 0]))).isSome = true := by decide

theorem witness_WrittenBytesStayWritten :
    let s : State := { acceptCommand 0x00000801 (fullDecode 8 0) with script := [] }
    (nextOf (step s)).isSome = true ∧ ((bufferOf .inBuf s).read 15).isSome = true := by decide

theorem witness_WrittenBytesStayWritten_noReset :
    ∀ rest, ({ acceptCommand 0x00000801 (fullDecode 8 0) with script := [] } : State).script ≠ .reset :: rest := by
  intro rest; simp

end Sys2Proof.Tests
end

section
/-! PROOFS of the family 00_scope: the invariant of every run, the arithmetic of the normalizer, and LATENCY. -/

namespace Sys2Proof.Machine

/-! ## What a command's completion keeps -/

theorem CommandEffect.params_eq {s t : State} (h : CommandEffect s t) : t.params = s.params := by cases h <;> rfl

theorem CommandEffect.script_eq {s t : State} (h : CommandEffect s t) : t.script = s.script := by cases h <;> rfl

theorem CommandEffect.unseen_eq {s t : State} (h : CommandEffect s t) : t.unseen = s.unseen := by cases h <;> rfl

theorem CommandEffect.engine_idle {s t : State} (h : CommandEffect s t) : t.engine = .idle := by cases h <;> rfl

/-- Every completion writes STATUS in the one way of R32, with a sub-cause exactly for a FormatError (R22). -/
theorem CommandEffect.status_eq {s t : State} (h : CommandEffect s t) :
    ∃ e c, t.status = s.status.complete e c ∧ (c ≠ .none ↔ e = .formatError) := by
  cases h with
  | failed e c _ hc => exact ⟨e, c, rfl, hc⟩
  | zeroDivisor => exact ⟨.divideByZero, .none, rfl, by simp⟩
  | decoded vs => exact ⟨.ok, .none, rfl, by simp⟩
  | normalized m fs => exact ⟨.ok, .none, rfl, by simp⟩

theorem CommandEffect.showsDone {s t : State} (h : CommandEffect s t) : t.status.showsDone = true := by
  obtain ⟨e, c, hst, -⟩ := h.status_eq
  simp [hst, Status.showsDone]

theorem CommandEffect.buffersWf {s t : State} (h : CommandEffect s t) (hb : s.buffersWf) : t.buffersWf := by
  obtain ⟨hin, ⟨hsmp, hsmpCap⟩, hnrm, hnrmCap⟩ := hb
  cases h with
  | failed => exact ⟨hin, ⟨hsmp, hsmpCap⟩, hnrm, hnrmCap⟩
  | zeroDivisor => exact ⟨hin, ⟨hsmp, hsmpCap⟩, hnrm, hnrmCap⟩
  | decoded vs _ hcap =>
    have hwithin := Memory.writeEntries_within (vs := vs.map enc64) hsmpCap (by simpa using hcap)
    exact ⟨hin, ⟨Memory.writeEntries_wf _ hsmp, hwithin⟩, hnrm, hnrmCap⟩
  | normalized m fs _ _ hcap =>
    exact ⟨hin, ⟨hsmp, hsmpCap⟩, Memory.writeEntries_wf _ hnrm, Memory.writeEntries_within hnrmCap hcap⟩

/-- MAXABS is kept, or becomes 0 or the largest magnitude of 64-bit samples (R29). -/
theorem CommandEffect.maxAbs_le {s t : State} (h : CommandEffect s t) (hm : s.maxAbs.toNat ≤ 2 ^ 63) :
    t.maxAbs.toNat ≤ 2 ^ 63 := by
  cases h with
  | failed => exact hm
  | zeroDivisor => simp
  | decoded => exact hm
  | normalized m fs hm =>
    have hlt : m < 2 ^ 64 := by omega
    rwa [finish_maxAbs, writeNormalized_maxAbs, setMaxAbs_maxAbs, BitVec.toNat_ofNat, Nat.mod_eq_of_lt hlt]

/-! ## The invariant at reset -/

theorem Status.reset_legal : Status.reset.legal := by simp [Status.legal, Status.reset]

/-- Nothing is unseen of a state whose account is empty and whose engine is Idle. -/
theorem unseenWf_of_none {s : State} (hu : s.unseen = Unseen.none) (he : s.engine = .idle) : s.unseenWf := by
  simp [State.unseenWf, hu, he, Unseen.none, Engine.hides]

theorem resetWith_inv {p : Params} (hp : p.legal) : (State.resetWith p).Inv :=
  ⟨hp, reset_buffersWf p, Status.reset_legal, by simp [State.resetWith, Status.reset, accepting],
    by simp [State.resetWith], unseenWf_of_none rfl rfl⟩

/-- Settles O49: the parameters of Config are legal, and the reset state of legal parameters meets the invariant. -/
theorem invariantAtReset : Obligations.InvariantAtReset := resetWith_inv params_legal

/-! ## Every step keeps the invariant -/

/-- The script is the outside's and takes no part in the invariant. -/
theorem setScript_inv (es : List Event) {s : State} : (setScript es s).Inv ↔ s.Inv := Iff.rfl

theorem Status.accept_legal {st : Status} (h : st.legal) : st.accept.legal := by
  obtain ⟨-, hcause, hseen⟩ := h
  exact ⟨by simp, hcause, hseen⟩

theorem Status.complete_legal {e : ErrCode} {c : FmtCause} (st : Status) (h : c ≠ .none ↔ e = .formatError) :
    (st.complete e c).legal := by
  refine ⟨by simp, h, fun he => ?_⟩
  simpa using .inr he

/-- The bytes the host has written since are still SMP_BUF's after a command: the command leaves SMP_BUF alone, or its
acceptance has forgotten them (R96, R97). -/
theorem runCommand_unseenWf {cmd : Word} {s t : State} (hbusy : s.engine = .busy cmd) (hu : s.unseenWf)
    (h : runCommand cmd s = .next t) : t.unseenWf := by
  obtain ⟨hwf, hsince, hnone, hhides⟩ := hu
  have heff := runCommand_effect h
  have haccept : s.unseen.accept cmd = s.unseen := by simpa [hbusy, Engine.hides] using hhides
  unfold State.unseenWf
  rw [heff.unseen_eq, heff.engine_idle]
  refine ⟨hwf, ?_, hnone, rfl⟩
  rcases runCommand_smpBuf h with hsmp | hforgets
  · rwa [hsmp]
  · have hempty : s.unseen.since = [] := haccept ▸ hforgets s.unseen
    simp [hempty]

theorem runCommand_inv {cmd : Word} {s t : State} (hbusy : s.engine = .busy cmd) (hs : s.Inv)
    (h : runCommand cmd s = .next t) : t.Inv := by
  obtain ⟨hp, hb, -, -, hm, hu⟩ := hs
  have heff := runCommand_effect h
  obtain ⟨e, c, hst, hc⟩ := heff.status_eq
  refine ⟨heff.params_eq ▸ hp, heff.buffersWf hb, hst ▸ Status.complete_legal _ hc, ?_, heff.maxAbs_le hm,
    runCommand_unseenWf hbusy hu h⟩
  simp [hst, accepting_of_idle t heff.engine_idle]

/-- Acceptance makes the command's outputs unseen, and forgets the host's bytes or leaves them (R97). -/
theorem acceptCommand_unseenWf (w : Word) {s : State} (hu : s.unseenWf) : (acceptCommand w s).unseenWf := by
  obtain ⟨hwf, hsince, hnone, -⟩ := hu
  have hagain : (Engine.busy w).hides (s.unseen.accept w) = s.unseen.accept w := Unseen.accept_accept w s.unseen
  unfold State.unseenWf
  simp only [acceptCommand_unseen, acceptCommand_smpBuf, acceptCommand_engine]
  rcases Unseen.accept_since w s.unseen with ⟨hempty, hsmp⟩ | ⟨hkept, hsmp⟩
  · simp [hempty, hsmp, hagain]
  · rw [hkept, hsmp]
    exact ⟨hwf, hsince, hnone, hagain⟩

theorem acceptCommand_inv (w : Word) {s : State} (hs : s.Inv) : (acceptCommand w s).Inv := by
  obtain ⟨hp, hb, hst, -, hm, hu⟩ := hs
  exact ⟨hp, hb, Status.accept_legal hst, by simp [accepting], hm, acceptCommand_unseenWf w hu⟩

theorem hostStore_buffersWf {b : Buffer} {a : Nat} {bs : List Byte} {s : State} (hb : s.buffersWf)
    (hcap : a + bs.length ≤ capacityOf s.params b) : (hostStore b a bs s).buffersWf := by
  obtain ⟨⟨hin, hinCap⟩, ⟨hsmp, hsmpCap⟩, hnrm, hnrmCap⟩ := hb
  cases b with
  | inBuf =>
    exact ⟨⟨Memory.store_wf a bs hin, Memory.store_within hinCap hcap⟩, ⟨hsmp, hsmpCap⟩, hnrm, hnrmCap⟩
  | smpBuf =>
    exact ⟨⟨hin, hinCap⟩, ⟨Memory.store_wf a bs hsmp, Memory.store_within hsmpCap hcap⟩, hnrm, hnrmCap⟩
  | nrmBuf =>
    exact ⟨⟨hin, hinCap⟩, ⟨hsmp, hsmpCap⟩, Memory.store_wf a bs hnrm, Memory.store_within hnrmCap hcap⟩

/-- A store of the host's is listed as its own where SMP_BUF is unseen, and nowhere else (R96). -/
theorem hostStore_unseenWf {b : Buffer} {a : Nat} {bs : List Byte} {s : State} (hidle : s.engine = .idle)
    (hu : s.unseenWf) : (hostStore b a bs s).unseenWf := by
  obtain ⟨hwf, hsince, hnone, -⟩ := hu
  have hhides : (hostStore b a bs s).engine.hides (hostStore b a bs s).unseen = (hostStore b a bs s).unseen := by
    rw [hostStore_engine, hidle]; rfl
  cases b with
  | inBuf => exact ⟨hwf, hsince, hnone, hhides⟩
  | nrmBuf => exact ⟨hwf, hsince, hnone, hhides⟩
  | smpBuf =>
    obtain ⟨hwf', hsince'⟩ := Unseen.wrote_since hwf hsince hnone a bs
    refine ⟨hwf', hsince', fun hseen => ?_, hhides⟩
    have hseen' : s.unseen.smp = false := by simpa using hseen
    simp [Unseen.wrote, hseen', hnone hseen']

theorem hostStore_inv {b : Buffer} {a : Nat} {bs : List Byte} {s : State} (hidle : s.engine = .idle)
    (hcap : a + bs.length ≤ capacityOf s.params b) (hs : s.Inv) : (hostStore b a bs s).Inv := by
  obtain ⟨hp, hb, hst, hbusy, hm, hu⟩ := hs
  refine ⟨by simpa using hp, hostStore_buffersWf hb hcap, by simpa using hst, ?_, by simpa using hm,
    hostStore_unseenWf hidle hu⟩
  simpa [accepting] using hbusy

/-- A Busy engine has DONE = 0, so that a STATUS read that makes every output seen finds it Idle (R18, R47). -/
theorem returnStatus_inv {s : State} (hs : s.Inv) : (returnStatus s).Inv := by
  obtain ⟨hp, hb, hst, hbusy, hm, hu⟩ := hs
  refine ⟨hp, hb, hst, hbusy, hm, ?_⟩
  by_cases hdone : s.status.showsDone = true
  · obtain ⟨hnotBusy, -⟩ : s.status.busy = false ∧ s.status.done = true := by
      simpa [Status.showsDone] using hdone
    have hidle : s.engine = .idle := (accepting_iff s).1 (by simpa [hnotBusy] using hbusy)
    exact unseenWf_of_none (by simp [hdone]) hidle
  · simpa [State.unseenWf, hdone] using hu

/-- A SAMPLE_COUNT write with the engine Idle makes SAMPLE_COUNT seen and touches nothing else of the account (R96). -/
theorem writeSampleCount_inv (v : Word) {s : State} (hidle : s.engine = .idle) (hs : s.Inv) :
    ({ s with sampleCount := v, unseen := { s.unseen with count := false } } : State).Inv := by
  obtain ⟨hp, hb, hst, hbusy, hm, hwf, hsince, hnone, -⟩ := hs
  exact ⟨hp, hb, hst, hbusy, hm, hwf, hsince, hnone, by simp only [hidle, Engine.hides]⟩

theorem HostEffect.inv {s t : State} (h : HostEffect s t) (hs : s.Inv) : t.Inv := by
  cases h with
  | ignored => exact hs
  | accepted w => exact acceptCommand_inv w hs
  | channels v => exact hs
  | frames v => exact hs
  | inLen v => exact hs
  | sampleCount v hidle => exact writeSampleCount_inv v hidle hs
  | stored b a n v hidle _ hcap => exact hostStore_inv hidle (by simpa using hcap) hs
  | read v => exact hs
  | readStatus => exact returnStatus_inv hs
  | readAny n => exact hs
  | readHidden hidden bs => exact hs

/-- The reset input leaves the parameters and gives the reset state but for the outside's own fields (R92, R93). -/
theorem resetInput_inv {s : State} (hs : s.Inv) : (resetInput s).Inv := by
  obtain ⟨hp, -⟩ := hs
  exact resetWith_inv hp

/-- Settles O50, by the cases of what a step can do: nothing, a completion, a host access, a STATUS read of POLL, a
reset. -/
theorem stepKeepsInvariant : Obligations.StepKeepsInvariant := by
  intro s t hs h
  obtain ⟨es, rfl⟩ | ⟨es, cmd, hbusy, hrun⟩ | ⟨es, heff⟩ | ⟨es, rfl⟩ | ⟨es, -, rfl⟩ := step_next h
  · exact (setScript_inv es).2 hs
  · exact runCommand_inv (s := setScript es s) hbusy ((setScript_inv es).2 hs) hrun
  · exact heff.inv ((setScript_inv es).2 hs)
  · exact (setScript_inv es).2 (returnStatus_inv hs)
  · exact resetInput_inv ((setScript_inv es).2 hs)

/-! ## Rounding -/

/-- The sign drops out of the distance to the rounded value (R11). -/
theorem sub_roundT_mul_natAbs (mode : TieMode) (p : Int) (q : Nat) :
    (p - roundT mode p q * q).natAbs = ((p.natAbs : Int) - (roundMagnitude mode p.natAbs q * q : Nat)).natAbs := by
  unfold roundT
  split
  · have hneg : (p.natAbs : Int) = -p := by omega
    rw [Nat.cast_mul, ← Int.natAbs_neg, hneg]
    congr 1
    ring
  · have hpos : (p.natAbs : Int) = p := by omega
    rw [Nat.cast_mul, hpos]

/-- A rounded magnitude is nearest, and at an exact half the even one or the one above, as `mode` says (R11). -/
theorem roundMagnitude_nearest (mode : TieMode) (a : Nat) {q : Nat} (hq : 0 < q) :
    2 * ((a : Int) - (roundMagnitude mode a q * q : Nat)).natAbs ≤ q ∧
      (2 * ((a : Int) - (roundMagnitude mode a q * q : Nat)).natAbs = q →
        (mode = .even → roundMagnitude mode a q % 2 = 0) ∧ (mode = .away → a < roundMagnitude mode a q * q)) := by
  obtain ⟨r, hr, ⟨hbelow, hdown⟩ | ⟨habove, hup⟩⟩ := roundMagnitude_cases mode a q hq
  · have hdist : ((a : Int) - (roundMagnitude mode a q * q : Nat)).natAbs = r := by omega
    rw [hdist]
    rcases hdown with hlt | ⟨htie, rfl, heven⟩
    · exact ⟨by omega, fun h => absurd h (by omega)⟩
    · exact ⟨by omega, fun _ => ⟨fun _ => heven, by simp⟩⟩
  · have hdist : ((a : Int) - (roundMagnitude mode a q * q : Nat)).natAbs = q - r := by omega
    rw [hdist]
    rcases hup with hgt | ⟨htie, heven⟩
    · exact ⟨by omega, fun h => absurd h (by omega)⟩
    · exact ⟨by omega, fun _ => ⟨heven, fun _ => by omega⟩⟩

theorem roundT_neg (mode : TieMode) (p : Int) {q : Nat} (hq : 0 < q) : roundT mode (-p) q = -roundT mode p q := by
  have hzero : roundMagnitude mode 0 q = 0 := by simpa using roundMagnitude_mul mode 0 q hq
  unfold roundT
  rw [Int.natAbs_neg]
  rcases lt_trichotomy p 0 with h | rfl | h
  · rw [if_neg (by omega), if_pos h, neg_neg]
  · simp [hzero]
  · rw [if_pos (by omega), if_neg (by omega)]

/-- Settles O17: the claim for the magnitude, with the sign put back. -/
theorem roundTIsNearest : Obligations.RoundTIsNearest := by
  intro mode p q hq
  obtain ⟨hhalf, htie⟩ := roundMagnitude_nearest mode p.natAbs hq
  rw [sub_roundT_mul_natAbs, roundT_natAbs]
  refine ⟨hhalf, fun h => ⟨fun heven => ?_, (htie h).2⟩, roundT_neg mode p hq⟩
  have habs : (roundT mode p q).natAbs % 2 = 0 := roundT_natAbs mode p q ▸ (htie h).1 heven
  omega

/-! ## The binary64 pattern -/

/-- The exponent scales a / b, at most 1, into [1, 2). -/
theorem binaryExponent_of_le {a b : Nat} (ha : 0 < a) (hab : a ≤ b) :
    ∃ n : Nat, binaryExponent a b = -n ∧ b ≤ a * 2 ^ n ∧ a * 2 ^ n < 2 * b := by
  have ha0 : a ≠ 0 := by omega
  have hb0 : b ≠ 0 := by omega
  have hlog : Nat.log2 a ≤ Nat.log2 b := (Nat.le_log2 hb0).2 ((Nat.log2_self_le ha0).trans hab)
  obtain ⟨d, hd⟩ : ∃ d, Nat.log2 b = Nat.log2 a + d := ⟨_, (Nat.add_sub_of_le hlog).symm⟩
  have haLow : 2 ^ Nat.log2 b ≤ a * 2 ^ d := by
    rw [hd, pow_add]; exact Nat.mul_le_mul_right _ (Nat.log2_self_le ha0)
  have haHigh : a * 2 ^ d < 2 * 2 ^ Nat.log2 b := by
    have hlt : a * 2 ^ d < 2 ^ (Nat.log2 a + 1) * 2 ^ d := Nat.mul_lt_mul_of_pos_right Nat.lt_log2_self (by positivity)
    rw [hd, pow_add]
    rw [pow_succ] at hlt
    linarith
  have hbLow : 2 ^ Nat.log2 b ≤ b := Nat.log2_self_le hb0
  have hbHigh : b < 2 * 2 ^ Nat.log2 b := by rw [← pow_succ']; exact Nat.lt_log2_self
  have hexp : binaryExponent a b = if b ≤ a * 2 ^ d then -(d : Int) else -(d : Int) - 1 := by
    have he : (Nat.log2 a : Int) - Nat.log2 b = -(d : Int) := by omega
    simp [binaryExponent, he]
  by_cases hfit : b ≤ a * 2 ^ d
  · exact ⟨d, by rw [hexp, if_pos hfit], hfit, by omega⟩
  · refine ⟨d + 1, by rw [hexp, if_neg hfit]; omega, ?_, ?_⟩ <;> rw [pow_succ, ← mul_assoc] <;> omega

/-- In a binade from 2^-1022 to 1 the exponent and the significand, rounded at 52 fraction bits, are added up. -/
theorem binary64Magnitude_of_exponent {a b n : Nat} (ha : 0 < a) (hexp : binaryExponent a b = -n) (hn : n ≤ 1022) :
    binary64Magnitude a b =
      min ((1022 - n) * 2 ^ 52 + roundMagnitude .even (a * 2 ^ (52 + n)) b) (0x7FF * 2 ^ 52) := by
  have hnormal : max (-(n : Int)) (-1022) = -n := by omega
  have hup : (52 - -(n : Int)).toNat = 52 + n := by omega
  have hdown : (-(n : Int) - 52).toNat = 0 := by omega
  have hbias : (-(n : Int) + 1022).toNat = 1022 - n := by omega
  simp only [binary64Magnitude, hexp, hnormal, hup, hdown, hbias, if_neg ha.ne', pow_zero, mul_one]

/-- The magnitude bits of k / 10000 for k from 1 to 10000: the biased exponent 1023 - n and the fraction of the nearest
significand, which never carries into the exponent. -/
theorem binary64Magnitude_fields {a : Nat} (ha : 0 < a) (hle : a ≤ 10000) :
    ∃ n F : Nat, n ≤ 14 ∧ F < 2 ^ 52 ∧ binary64Magnitude a 10000 = (1023 - n) * 2 ^ 52 + F ∧
      2 * (((2 ^ 52 + F : Nat) : Int) * 10000 - (a * 2 ^ (52 + n) : Nat)).natAbs ≤ 10000 ∧
      (2 * (((2 ^ 52 + F : Nat) : Int) * 10000 - (a * 2 ^ (52 + n) : Nat)).natAbs = 10000 → F % 2 = 0) := by
  obtain ⟨n, hexp, hlow, hhigh⟩ := binaryExponent_of_le ha hle
  have hn : n ≤ 14 := by
    have hpow : 2 ^ n < 2 ^ 15 := by
      have : 2 ^ n ≤ a * 2 ^ n := Nat.le_mul_of_pos_left _ ha
      omega
    have := (Nat.pow_lt_pow_iff_right (by omega)).1 hpow
    omega
  have hscale : a * 2 ^ (52 + n) = a * 2 ^ n * 2 ^ 52 := by rw [pow_add]; ring
  obtain ⟨hhalf, htie⟩ := roundMagnitude_nearest .even (a * 2 ^ (52 + n)) (q := 10000) (by omega)
  have hmag := binary64Magnitude_of_exponent ha hexp (by omega)
  generalize roundMagnitude .even (a * 2 ^ (52 + n)) 10000 = sig at hhalf htie hmag
  have hsig : 2 ^ 52 ≤ sig ∧ sig < 2 ^ 53 := by omega
  refine ⟨n, sig - 2 ^ 52, hn, by omega, by omega, by omega, fun h => ?_⟩
  have heven : sig % 2 = 0 := (htie (by omega)).1 rfl
  omega

theorem toBinary64_sign (p : Int) (q : Nat) : (toBinary64 p q).getLsbD 63 = decide (p < 0) := by
  rw [toBinary64, BitVec.getLsbD_append]
  simp

/-- Below its sign bit a pattern is the magnitude's bits (R57). -/
theorem toBinary64_toNat {p : Int} {q : Nat} (h : binary64Magnitude p.natAbs q < 2 ^ 63) :
    (toBinary64 p q).toNat = (decide (p < 0)).toNat * 2 ^ 63 + binary64Magnitude p.natAbs q := by
  rw [toBinary64, BitVec.toNat_append, BitVec.toNat_ofBool, BitVec.toNat_ofNat, Nat.mod_eq_of_lt h,
    ← Nat.shiftLeft_add_eq_or_of_lt h, Nat.shiftLeft_eq]

theorem toBinary64_exponent {p : Int} {q E F : Nat} (hE : E < 2 ^ 11) (hF : F < 2 ^ 52)
    (h : binary64Magnitude p.natAbs q = E * 2 ^ 52 + F) : ((toBinary64 p q).extractLsb' 52 11).toNat = E := by
  rw [BitVec.extractLsb'_toNat, toBinary64_toNat (by omega), h, Nat.shiftRight_eq_div_pow]
  omega

theorem toBinary64_fraction {p : Int} {q E F : Nat} (hE : E < 2 ^ 11) (hF : F < 2 ^ 52)
    (h : binary64Magnitude p.natAbs q = E * 2 ^ 52 + F) : ((toBinary64 p q).extractLsb' 0 52).toNat = F := by
  rw [BitVec.extractLsb'_toNat, toBinary64_toNat (by omega), h, Nat.shiftRight_zero]
  omega

/-- Settles O19: the fields of the magnitude's bits, read out of the pattern; and the signed zeros. -/
theorem encNormIsNearestBinary64 : Obligations.EncNormIsNearestBinary64 := by
  intro k x hk
  constructor
  · intro h0
    obtain ⟨n, F, hn, hF, hmag, hhalf, htie⟩ := binary64Magnitude_fields (a := k.natAbs) (by omega) hk
    have hE : 1023 - n < 2 ^ 11 := by omega
    simp only [encNorm_of_ne_zero h0, toBinary64_sign, toBinary64_exponent hE hF hmag, toBinary64_fraction hE hF hmag,
      show 1075 - (1023 - n) = 52 + n by omega]
    exact ⟨trivial, by omega, by omega, hhalf, htie⟩
  · rintro rfl
    split
    · exact encNorm_zero_of_neg ‹_›
    · exact encNorm_zero_of_nonneg (by omega)

/-! ## LATENCY -/

/-- A state with another outside: what it will do, what it has read, and what it has not seen. -/
def withOutside (es : List Event) (log : List Word) (v : Unseen) (s : State) : State :=
  { s with script := es, readLog := log, unseen := v }

section Outside

variable (es : List Event) (log : List Word) (v : Unseen) (s : State)

@[simp] theorem withOutside_params : (withOutside es log v s).params = s.params := rfl
@[simp] theorem withOutside_sampleCount : (withOutside es log v s).sampleCount = s.sampleCount := rfl
@[simp] theorem withOutside_engine : (withOutside es log v s).engine = s.engine := rfl
@[simp] theorem withOutside_script : (withOutside es log v s).script = es := rfl

@[simp] theorem finish_withOutside (e : ErrCode) (c : FmtCause) :
    finish e c (withOutside es log v s) = withOutside es log v (finish e c s) := rfl

@[simp] theorem writeSamples_withOutside (vs : List Int) :
    writeSamples vs (withOutside es log v s) = withOutside es log v (writeSamples vs s) := rfl

@[simp] theorem setMaxAbs_withOutside (m : Nat) :
    setMaxAbs m (withOutside es log v s) = withOutside es log v (setMaxAbs m s) := rfl

@[simp] theorem writeNormalized_withOutside (fs : List Entry) :
    writeNormalized fs (withOutside es log v s) = withOutside es log v (writeNormalized fs s) := rfl

@[simp] theorem decodeCheck_withOutside (W : Nat) : decodeCheck W (withOutside es log v s) = decodeCheck W s := rfl

@[simp] theorem inSamples_withOutside (W : Nat) (unpack : List Byte → Int) :
    inSamples W unpack (withOutside es log v s) = inSamples W unpack s := rfl

@[simp] theorem smpSamples_withOutside (N : Nat) : smpSamples N (withOutside es log v s) = smpSamples N s := rfl

/-- A STATUS read changes the outside only (R43). -/
theorem setScript_returnStatus :
    setScript es (returnStatus s) =
      withOutside es (s.status.word :: s.readLog) (if s.status.showsDone then Unseen.none else s.unseen) s := rfl

variable {s}

theorem decodeCommand_withOutside {W : Nat} {unpack : List Byte → Int} {u : State}
    (h : decodeCommand W unpack s = .next u) :
    decodeCommand W unpack (withOutside es log v s) = .next (withOutside es log v u) := by
  obtain ⟨e, c, hc, rfl⟩ | ⟨hc, vs, hvs, rfl⟩ := decodeCommand_next h
  · simp [decodeCommand, hc]
  · simp [decodeCommand, hc, hvs]

theorem execNormalize_withOutside {u : State} (h : execNormalize s = .next u) :
    execNormalize (withOutside es log v s) = .next (withOutside es log v u) := by
  obtain ⟨hcap, rfl⟩ | ⟨hcap, ss, hss, ⟨h0, rfl⟩ | ⟨h0, rfl⟩⟩ := execNormalize_next h
  · simp [execNormalize, hcap]
  · simp [execNormalize, not_lt.2 hcap, hss, normalizeSamples, h0]
  · simp [execNormalize, not_lt.2 hcap, hss, normalizeSamples, h0]

theorem exec_withOutside {i : Instr} {u : State} (h : exec i s = .next u) :
    exec i (withOutside es log v s) = .next (withOutside es log v u) := by
  cases i with
  | decodeI8 => exact decodeCommand_withOutside es log v h
  | decodeI16 => exact decodeCommand_withOutside es log v h
  | decodeI24 => exact decodeCommand_withOutside es log v h
  | decodeI32 => exact decodeCommand_withOutside es log v h
  | decodeI64 => exact decodeCommand_withOutside es log v h
  | decodeBadWidth width => cases h; rfl
  | normalize => exact execNormalize_withOutside es log v h

/-- A command neither reads nor writes the outside (R45): with another outside it does the same to the block. -/
theorem runCommand_withOutside {w : Word} {u : State} (h : runCommand w s = .next u) :
    runCommand w (withOutside es log v s) = .next (withOutside es log v u) := by
  unfold runCommand at h ⊢
  cases hd : decodeWord w with
  | command i =>
    rw [hd] at h
    exact exec_withOutside es log v h
  | illegal why =>
    rw [hd] at h
    cases h
    rfl

end Outside

/-- A POLL at the head of the script takes the next step (R59). -/
theorem step_poll {s : State} {spins : Nat} {rest : List Event} (h : s.script = .poll spins :: rest) :
    step s = pollStep spins rest s := by
  unfold step; rw [h]

/-- With no spin left the engine takes its turn (R101). -/
theorem pollStep_zero_of_busy {s : State} {cmd : Word} (rest : List Event) (h : s.engine = .busy cmd) :
    pollStep 0 rest s = runCommand cmd s := by
  simp [pollStep, not_accepting_of_busy s h, engineStep, h]

/-- With spins left POLL reads STATUS and goes on (R59). -/
theorem pollStep_succ_of_busy {s : State} {cmd : Word} (k : Nat) (rest : List Event) (h : s.engine = .busy cmd) :
    pollStep (k + 1) rest s = .next (setScript (.poll k :: rest) (returnStatus s)) := by
  simp [pollStep, not_accepting_of_busy s h]

/-- The STATUS read that shows DONE ends POLL (R59). -/
theorem pollStep_of_done {s : State} (spins : Nat) (rest : List Event) (hidle : s.engine = .idle)
    (hdone : s.status.showsDone = true) : pollStep spins rest s = .next (setScript rest (returnStatus s)) := by
  simp [pollStep, accepting_of_idle s hidle, hdone]

/-- Settles O33, by induction on the reads before the completion: each leaves a state that differs in the outside only,
of which the command makes the same. -/
theorem latencyChangesNoResult : Obligations.LatencyChangesNoResult := by
  intro spins
  induction spins with
  | zero =>
    intro s u cmd rest hbusy hscript hrun
    have heff := runCommand_effect hrun
    have hcompletes : step s = .next u := by rw [step_poll hscript, pollStep_zero_of_busy rest hbusy, hrun]
    have hreads : step u = .next (setScript rest (returnStatus u)) := by
      rw [step_poll (heff.script_eq.trans hscript), pollStep_of_done 0 rest heff.engine_idle heff.showsDone]
    refine ⟨u.status.word :: u.readLog, ?_⟩
    rw [stepN_succ_of_next hcompletes, stepN_succ_of_next hreads, setScript_returnStatus, if_pos heff.showsDone]
    rfl
  | succ k ih =>
    intro s u cmd rest hbusy hscript hrun
    have hspins : step s = .next (setScript (.poll k :: rest) (returnStatus s)) := by
      rw [step_poll hscript, pollStep_succ_of_busy k rest hbusy]
    rw [setScript_returnStatus] at hspins
    obtain ⟨log, hlog⟩ := ih _ _ cmd rest ((withOutside_engine ..).trans hbusy) (withOutside_script ..)
      (runCommand_withOutside _ _ _ hrun)
    exact ⟨log, (stepN_succ_of_next hspins).trans hlog⟩

end Sys2Proof.Machine
end

section
/-! PROOFS of the family 10_state: what a step can do to STATUS, the parameters and the written bytes; the STATUS word;
register accesses; and the little-endian reads of buffers and entries. -/

namespace Sys2Proof.Machine

/-! ## What leaves the buffers alone -/

@[simp] theorem bufferOf_setScript (b : Buffer) (es : List Event) (s : State) :
    bufferOf b (setScript es s) = bufferOf b s := by cases b <;> rfl

@[simp] theorem bufferOf_returnStatus (b : Buffer) (s : State) : bufferOf b (returnStatus s) = bufferOf b s := by
  cases b <;> rfl

/-! ## What a completion leaves -/

theorem CommandEffect.channels_eq {s t : State} (h : CommandEffect s t) : t.channels = s.channels := by cases h <;> rfl

theorem CommandEffect.frames_eq {s t : State} (h : CommandEffect s t) : t.frames = s.frames := by cases h <;> rfl

theorem CommandEffect.inLen_eq {s t : State} (h : CommandEffect s t) : t.inLen = s.inLen := by cases h <;> rfl

theorem CommandEffect.inBuf_eq {s t : State} (h : CommandEffect s t) : t.inBuf = s.inBuf := by cases h <;> rfl

theorem CommandEffect.readLog_eq {s t : State} (h : CommandEffect s t) : t.readLog = s.readLog := by cases h <;> rfl

theorem CommandEffect.draws_eq {s t : State} (h : CommandEffect s t) : t.draws = s.draws := by cases h <;> rfl

/-- A command stores entries or nothing, and a store makes no written byte unwritten (R27). -/
theorem CommandEffect.keeps_written {s t : State} (h : CommandEffect s t) {b : Buffer} {a : Nat}
    (hw : ((bufferOf b s).read a).isSome) : ((bufferOf b t).read a).isSome := by
  cases h with
  | failed e c => cases b <;> exact hw
  | zeroDivisor => cases b <;> exact hw
  | decoded vs =>
    cases b with
    | inBuf => exact hw
    | smpBuf => exact Memory.read_writeEntries_isSome _ _ hw
    | nrmBuf => exact hw
  | normalized m fs =>
    cases b with
    | inBuf => exact hw
    | smpBuf => exact hw
    | nrmBuf => exact Memory.read_writeEntries_isSome _ _ hw

/-- Settles O24, from the one way in which every completion writes STATUS and from what no completion writes. -/
theorem completionReportsResult : Obligations.CompletionReportsResult := by
  intro w s t h
  have heff := runCommand_effect h
  obtain ⟨e, c, hst, hc⟩ := heff.status_eq
  refine ⟨heff.engine_idle, accepting_of_idle t heff.engine_idle, ?_, ?_, ?_, ?_,
    ⟨heff.params_eq, heff.channels_eq, heff.frames_eq, heff.inLen_eq, heff.inBuf_eq⟩,
    heff.script_eq, heff.readLog_eq, heff.unseen_eq, heff.draws_eq⟩
  · rw [hst, Status.complete_busy]
  · rw [hst, Status.complete_done]
  · rwa [hst, Status.complete_fmtCause, Status.complete_errCode]
  · rw [hst, Status.complete_errSeen, Status.complete_errCode]

/-- Settles O16, by the three ways NORMALIZE can end: too many samples, a zero divisor, success. -/
theorem normalizeFrame : Obligations.NormalizeFrame := by
  intro s t h
  obtain ⟨-, rfl⟩ | ⟨-, ss, hss, ⟨-, rfl⟩ | ⟨-, rfl⟩⟩ := execNormalize_next h
  · simp
  · simp
  · have hlen := smpSamples_length hss
    have habove : ∀ a, 8 * s.sampleCount.toNat ≤ a →
        (s.nrmBuf.writeEntries (ss.map (normalizeSample s.params.tieMode (maxAbsOf ss)))).read a = s.nrmBuf.read a :=
      fun a ha => Memory.read_writeEntries_above _ _ (by simpa [hlen] using ha)
    simpa using habove

/-! ## What a step does to STATUS, the parameters and the written bytes -/

theorem HostEffect.params_eq {s t : State} (h : HostEffect s t) : t.params = s.params := by
  cases h with
  | stored => exact hostStore_params ..
  | _ => rfl

/-- Of all host accesses only an accepted CTRL write touches STATUS and the engine (R17, R20). -/
theorem HostEffect.status_eq {s t : State} (h : HostEffect s t) :
    (t.status = s.status ∧ t.engine = s.engine) ∨
      ∃ w, s.engine = .idle ∧ t.engine = .busy w ∧ t.status = s.status.accept := by
  cases h with
  | accepted w hidle => exact .inr ⟨w, hidle, rfl, rfl⟩
  | stored => exact .inl ⟨hostStore_status .., hostStore_engine ..⟩
  | _ => exact .inl ⟨rfl, rfl⟩

/-- A host store makes no written byte unwritten, and no other access touches a buffer (R27). -/
theorem HostEffect.keeps_written {s t : State} (h : HostEffect s t) {b : Buffer} {a : Nat}
    (hw : ((bufferOf b s).read a).isSome) : ((bufferOf b t).read a).isSome := by
  cases h with
  | stored c a' n v =>
    rw [bufferOf_hostStore]
    split
    · subst b
      exact Memory.read_store_isSome _ _ _ hw
    · exact hw
  | _ => cases b <;> exact hw

/-- Every way a step can leave STATUS and the engine (R17, R20, R23, R32): a reset, unchanged, an acceptance, a
completion. -/
theorem step_status {s t : State} (h : step s = .next t) :
    (∃ rest, s.script = .reset :: rest ∧ t.status = Status.reset) ∨
      (t.status = s.status ∧ t.engine = s.engine) ∨
      (∃ w, s.engine = .idle ∧ t.engine = .busy w ∧ t.status = s.status.accept) ∨
      (∃ cmd e c, s.engine = .busy cmd ∧ t.engine = .idle ∧ t.status = s.status.complete e c) := by
  obtain ⟨es, rfl⟩ | ⟨es, cmd, hbusy, hrun⟩ | ⟨es, heff⟩ | ⟨es, rfl⟩ | ⟨es, hreset, rfl⟩ := step_next h
  · exact .inr (.inl ⟨rfl, rfl⟩)
  · have heff := runCommand_effect hrun
    obtain ⟨e, c, hst, -⟩ := heff.status_eq
    exact .inr (.inr (.inr ⟨cmd, e, c, hbusy, heff.engine_idle, hst⟩))
  · exact .inr (heff.status_eq.imp_right .inl)
  · exact .inr (.inl ⟨rfl, rfl⟩)
  · exact .inl ⟨es, hreset, rfl⟩

/-- No step changes the parameters, a reset included (R6, R30). -/
theorem step_params_eq {s t : State} (h : step s = .next t) : t.params = s.params := by
  obtain ⟨es, rfl⟩ | ⟨es, cmd, -, hrun⟩ | ⟨es, heff⟩ | ⟨es, rfl⟩ | ⟨es, -, rfl⟩ := step_next h
  · rfl
  · exact (runCommand_effect hrun).params_eq
  · exact heff.params_eq
  · rfl
  · rfl

/-- Settles O51, by the cases of what a step can do: only completions and host stores touch a buffer. -/
theorem writtenBytesStayWritten : Obligations.WrittenBytesStayWritten := by
  intro s t h hnoReset b a hw
  obtain ⟨es, rfl⟩ | ⟨es, cmd, -, hrun⟩ | ⟨es, heff⟩ | ⟨es, rfl⟩ | ⟨es, hreset, -⟩ := step_next h
  · rwa [bufferOf_setScript]
  · exact (runCommand_effect hrun).keeps_written (by rwa [bufferOf_setScript])
  · exact heff.keeps_written (by rwa [bufferOf_setScript])
  · rwa [bufferOf_setScript, bufferOf_returnStatus]
  · exact absurd hreset (hnoReset es)

/-- Settles O29, by the ways a step can leave STATUS: only a completion writes ERR_SEEN, and it only sets it. -/
theorem errSeenIsSticky : Obligations.ErrSeenIsSticky := by
  intro s t h hnoReset
  obtain ⟨rest, hreset, -⟩ | ⟨hst, heng⟩ | ⟨w, hidle, hbusy, hst⟩ | ⟨cmd, e, c, hbusy, hidle, hst⟩ := step_status h
  · exact absurd hreset (hnoReset rest)
  · rw [hst, heng]
    exact ⟨id, fun cmd hbusy hidle => absurd (hbusy.symm.trans hidle) (by simp),
      fun hunset hset => absurd (hunset.symm.trans hset) (by simp)⟩
  · rw [hst, Status.accept_errSeen]
    exact ⟨id, fun cmd hbusy' => absurd (hidle.symm.trans hbusy') (by simp),
      fun hunset hset => absurd (hunset.symm.trans hset) (by simp)⟩
  · rw [hst, Status.complete_errSeen, Status.complete_errCode]
    exact ⟨fun hset => by simp [hset], fun _ _ _ he => by simp [he],
      fun hunset hset => ⟨⟨cmd, hbusy⟩, hidle, by simpa [hunset] using hset⟩⟩

/-! ## The STATUS word -/

/-- Settles O30: each field is one of the eight pieces that the word is put together from (R18), found by passing the
pieces below it and leaving those above it. -/
theorem statusWordFields : Obligations.StatusWordFields := by
  intro st
  refine ⟨?busy, ?done, ?rsv2, ?errCode, ?fmtCause, ?rsv12, ?errSeen, ?rsv17⟩
  case busy | done | errSeen =>
    simp only [Status.word, BitVec.getLsbD_append]
    simp
  case rsv2 | errCode | fmtCause | rsv12 | rsv17 =>
    simp (disch := decide) only [Status.word, BitVec.extractLsb'_append_eq_of_le,
      BitVec.extractLsb'_append_eq_of_add_le]
    exact BitVec.extractLsb'_eq_self

/-! ## Register accesses -/

/-- A 32-bit access at a register's offset reaches it (R16, R39). -/
theorem busTarget_registerOffset (p : Params) (r : HostReg) : busTarget p (registerOffset r).toNat 4 = .register r :=
  busTarget_register p (by cases r <;> decide) (by cases r <;> decide) (registerAt_registerOffset r)

/-- A read at a register's offset is HostRegRead of it (R16, R37). -/
theorem step_readReg {s : State} {r : HostReg} {rest : List Event}
    (h : s.script = .host (.read (registerOffset r) 4) :: rest) : step s = hostRegRead r (setScript rest s) := by
  rw [step_host h, hostAccess, busTarget_registerOffset]

/-- A write at a register's offset is HostRegWrite of it (R16, R37). -/
theorem step_writeReg {s : State} {r : HostReg} {v : Word} {rest : List Event}
    (h : s.script = .host (.write (registerOffset r) 4 v) :: rest) : step s = hostRegWrite r v (setScript rest s) := by
  rw [step_host h, hostAccess, busTarget_registerOffset]

theorem hostRegWrite_readOnly {r : HostReg} (v : Word) (s : State) (h : readOnlyRegister r = true) :
    hostRegWrite r v s = .next s := by
  simp [hostRegWrite, h]

theorem hostRegWrite_ctrl_of_idle {s : State} (w : Word) (h : s.engine = .idle) :
    hostRegWrite .ctrl w s = .next (acceptCommand w s) := by
  simp [hostRegWrite, readOnlyRegister, accepting_of_idle s h]

theorem hostRegWrite_of_busy {r : HostReg} {s : State} {cmd : Word} (v : Word) (hr : readOnlyRegister r = false)
    (h : s.engine = .busy cmd) : hostRegWrite r v s = .fault .hostWriteWhileBusy := by
  simp [hostRegWrite, hr, not_accepting_of_busy s h]

/-- A read of STATUS returns its word, Idle or Busy (R18, R99). -/
theorem hostRegRead_status (s : State) : hostRegRead .status s = .next (returnStatus s) := by
  simp [hostRegRead, anyValueRegister, Unseen.hidesRegister, outputRegister]

/-- A read of any other register that is no any-value read returns the register's value and does nothing else. -/
theorem hostRegRead_value {r : HostReg} {s : State} (hr : r ≠ .status) (h : anyValueRegister r s = false) :
    hostRegRead r s = .next (returnRead (registerValue r s) s) := by
  cases r with
  | status => exact absurd rfl hr
  | _ => simp [hostRegRead, h]

/-- With the engine Idle a register is an any-value read exactly when it is not defined to the host (R46(c), R97). -/
theorem anyValueRegister_of_idle (r : HostReg) {s : State} (h : s.engine = .idle) :
    anyValueRegister r s = s.unseen.hidesRegister r := if_pos (accepting_of_idle s h)

/-- Only the output registers are ever any-value reads, and not once the engine is Idle and they are seen (R97, R99). -/
theorem anyValueRegister_eq_false {r : HostReg} {s : State}
    (hcount : r = .sampleCount → s.engine = .idle ∧ s.unseen.count = false)
    (hmax : r = .maxAbsLo ∨ r = .maxAbsHi → s.engine = .idle ∧ s.unseen.nrm = false) :
    anyValueRegister r s = false := by
  cases r with
  | sampleCount =>
    obtain ⟨hidle, hseen⟩ := hcount rfl
    exact (anyValueRegister_of_idle _ hidle).trans hseen
  | maxAbsLo =>
    obtain ⟨hidle, hseen⟩ := hmax (.inl rfl)
    exact (anyValueRegister_of_idle _ hidle).trans hseen
  | maxAbsHi =>
    obtain ⟨hidle, hseen⟩ := hmax (.inr rfl)
    exact (anyValueRegister_of_idle _ hidle).trans hseen
  | _ => simp [anyValueRegister, Unseen.hidesRegister, outputRegister]

@[simp] theorem registerValue_setScript (r : HostReg) (es : List Event) (s : State) :
    registerValue r (setScript es s) = registerValue r s := by cases r <;> rfl

/-- A step that reads a register whose value is defined to the host returns that value and does nothing else (R37). -/
theorem step_readReg_value {s : State} {r : HostReg} {rest : List Event}
    (h : s.script = .host (.read (registerOffset r) 4) :: rest) (hr : r ≠ .status)
    (hdefined : anyValueRegister r s = false) :
    step s = .next (returnRead (registerValue r s) (setScript rest s)) := by
  rw [step_readReg h, ← registerValue_setScript r rest s]
  exact hostRegRead_value hr hdefined

/-- Settles O37: the ten pairs are the registers' offsets and values, and a read of a register that is no any-value read
returns its value. -/
theorem registerReadValues : Obligations.RegisterReadValues := by
  intro s rest x hx hcount hmax hscript
  obtain ⟨r, rfl⟩ : ∃ r, x = (registerOffset r, registerValue r s) := by
    simp only [List.mem_cons, List.not_mem_nil, or_false] at hx
    rcases hx with rfl | rfl | rfl | rfl | rfl | rfl | rfl | rfl | rfl | rfl
    exacts [⟨.ctrl, rfl⟩, ⟨.status, rfl⟩, ⟨.channels, rfl⟩, ⟨.frames, rfl⟩, ⟨.inLen, rfl⟩, ⟨.sampleCount, rfl⟩,
      ⟨.maxAbsLo, rfl⟩, ⟨.maxAbsHi, rfl⟩, ⟨.inCap, rfl⟩, ⟨.sampleCap, rfl⟩]
  by_cases hr : r = .status
  · subst r
    exact ⟨_, (step_readReg (r := .status) hscript).trans (hostRegRead_status _), fun h => absurd rfl h⟩
  · have hdefined : anyValueRegister r s = false :=
      anyValueRegister_eq_false (fun h => hcount (by rw [h]; rfl))
        (fun h => hmax (by rcases h with rfl | rfl <;> simp [registerOffset]))
    exact ⟨s.unseen, step_readReg_value hscript hr hdefined, fun _ => rfl⟩

/-- Settles O38: every step keeps the parameters, the two capacity registers read as them, and writes to read-only
registers are ignored. -/
theorem capacitiesAreConstant : Obligations.CapacitiesAreConstant := by
  refine ⟨fun s t => step_params_eq, fun s rest => ⟨fun h => ?_, fun h => ?_, fun v h => ?_⟩⟩
  · exact step_readReg_value (r := .inCap) h (by simp) (anyValueRegister_eq_false (by simp) (by simp))
  · exact step_readReg_value (r := .sampleCap) h (by simp) (anyValueRegister_eq_false (by simp) (by simp))
  · rcases h with h | h
    · exact (step_writeReg (r := .inCap) h).trans (hostRegWrite_readOnly v _ rfl)
    · exact (step_writeReg (r := .sampleCap) h).trans (hostRegWrite_readOnly v _ rfl)

/-- A CTRL write with the engine Idle is the acceptance of its word (R17). -/
theorem step_ctrlWrite_of_idle {s : State} {w : Word} {rest : List Event}
    (h : s.script = .host (.write 0x00000000 4 w) :: rest) (hidle : s.engine = .idle) :
    step s = .next (acceptCommand w (setScript rest s)) :=
  (step_writeReg (r := .ctrl) h).trans (hostRegWrite_ctrl_of_idle w hidle)

/-- Settles O35: the three accesses to CTRL, a write while Idle, a write while Busy and a read. -/
theorem ctrlWriteStartsCommand : Obligations.CtrlWriteStartsCommand := by
  refine fun s rest => ⟨fun w h hidle => step_ctrlWrite_of_idle h hidle, fun w cmd h hbusy => ?_, fun h => ?_⟩
  · exact (step_writeReg (r := .ctrl) h).trans (hostRegWrite_of_busy w rfl hbusy)
  · exact step_readReg_value (r := .ctrl) h (by simp) (anyValueRegister_eq_false (by simp) (by simp))

/-- Settles O28: DONE is cleared by an acceptance, set by a completion, and by the ways a step can leave STATUS nothing
but an acceptance or a reset clears it; a STATUS read changes the outside only. -/
theorem doneFollowsTheCommand : Obligations.DoneFollowsTheCommand := by
  refine ⟨fun s w rest h hidle => ⟨_, step_ctrlWrite_of_idle h hidle, rfl, rfl, rfl⟩, ?_, ?_,
    fun s rest h => ⟨_, (step_readReg (r := .status) h).trans (hostRegRead_status _)⟩⟩
  · intro s t cmd hbusy h hidle hnoReset
    obtain ⟨rest, hreset, -⟩ | ⟨-, heng⟩ | ⟨w, hidle', -, -⟩ | ⟨-, e, c, -, -, hst⟩ := step_status h
    · exact absurd hreset (hnoReset rest)
    · simp [heng, hbusy] at hidle
    · simp [hbusy] at hidle'
    · simp [hst]
  · intro s t h hdone hcleared
    obtain ⟨rest, hreset, -⟩ | ⟨hst, -⟩ | ⟨w, hidle, hbusy, -⟩ | ⟨-, e, c, -, -, hst⟩ := step_status h
    · exact .inl ⟨rest, hreset⟩
    · simp [hst, hdone] at hcleared
    · exact .inr ⟨hidle, w, hbusy⟩
    · simp [hst] at hcleared

/-! ## A step runs the decoded command -/

/-- An engine event at the head of the script is the engine's turn (R32, R101). -/
theorem step_engine {s : State} {rest : List Event} (h : s.script = .engine :: rest) :
    step s = engineStep (setScript rest s) := by
  unfold step; rw [h]

/-- With the script exhausted the engine takes its turn (R101). -/
theorem step_nil {s : State} (h : s.script = []) : step s = engineStep s := by
  unfold step; rw [h]

/-- A Busy engine runs the word it has latched (R32). -/
theorem engineStep_of_busy {s : State} {cmd : Word} (h : s.engine = .busy cmd) : engineStep s = runCommand cmd s := by
  unfold engineStep; rw [h]

theorem runCommand_of_command {w : Word} {i : Instr} (s : State) (h : decodeWord w = .command i) :
    runCommand w s = exec i s := by
  unfold runCommand; rw [h]

theorem tableWord_toNat (w : Word) : tableWord 32 w.toNat = w := by
  unfold tableWord
  rw [Nat.mod_eq_of_lt w.isLt, BitVec.ofNat_toNat, BitVec.setWidth_eq]

/-- Settles O6: at each of the four places where the engine's turn stands, it runs the word, which decodes to i. -/
theorem stepRunsDecodedCommand : Obligations.StepRunsDecodedCommand := by
  intro s cmd i hbusy hdec
  have hrun : ∀ u : State, u.engine = .busy cmd → engineStep u = exec i u := fun u hu => by
    rw [engineStep_of_busy hu, runCommand_of_command u hdec]
  refine ⟨fun rest h => ?_, fun h => ?_, fun rest h => ?_, fun u => ?_⟩
  · exact (step_engine h).trans (hrun (setScript rest s) hbusy)
  · exact (step_nil h).trans (hrun s hbusy)
  · rw [step_poll h, pollStep_zero_of_busy rest hbusy, runCommand_of_command s hdec]
  · rw [State.withFetchWord, tableWord_toNat, step_engine rfl]
    exact hrun _ rfl

/-! ## Little-endian values -/

/-- Byte j of a word is the j-th of its little-endian bytes (R36). -/
theorem extractLsb'_eq_ofNat {w : Nat} (v : BitVec w) (j : Nat) :
    v.extractLsb' (8 * j) 8 = BitVec.ofNat 8 (v.toNat / 256 ^ j) := by
  rw [BitVec.extractLsb', Nat.shiftRight_eq_div_pow, pow_mul]; rfl

/-- The little-endian bytes of a little-endian value are the bytes it was made of (R36). -/
theorem toBytes_ofBytes (bs : List Byte) : toBytes bs.length (ofBytes bs) = bs := by
  induction bs with
  | nil => rfl
  | cons b bs ih =>
    have hb : b.toNat < 256 := b.isLt
    have hhead : BitVec.ofNat 8 (b.toNat + 256 * ofBytes bs) = b := by
      apply BitVec.eq_of_toNat_eq
      rw [BitVec.toNat_ofNat]
      omega
    have htail : (b.toNat + 256 * ofBytes bs) / 256 = ofBytes bs := by omega
    rw [List.length_cons, toBytes, ofBytes, hhead, htail, ih]

theorem ofBytes_lt_two_pow (bs : List Byte) : ofBytes bs < 2 ^ (8 * bs.length) := by
  rw [pow_mul]
  exact ofBytes_lt bs

/-- Byte j of the value of `bs` in a word that holds them all is the j-th of `bs` (R36). -/
theorem extractLsb'_ofBytes {w : Nat} {bs : List Byte} (hw : 8 * bs.length ≤ w) {j : Nat} (hj : j < bs.length) :
    (BitVec.ofNat w (ofBytes bs)).extractLsb' (8 * j) 8 = bs[j] := by
  have hlt : ofBytes bs < 2 ^ w := (ofBytes_lt_two_pow bs).trans_le (Nat.pow_le_pow_right (by omega) hw)
  rw [extractLsb'_eq_ofNat, BitVec.toNat_ofNat, Nat.mod_eq_of_lt hlt, ← toBytes_getElem bs.length _ j (by simpa)]
  simp only [toBytes_ofBytes]

/-- An entry is v exactly when its eight bytes are those of v (R36). -/
theorem Memory.readEntry_eq_some_iff {m : Memory} {i : Nat} {v : Entry} :
    m.readEntry i = some v ↔ m.readBytes (8 * i) 8 = some (entryBytes v) := by
  unfold Memory.readEntry
  constructor
  · intro h
    obtain ⟨bs, hbs, rfl⟩ := Option.map_eq_some_iff.1 h
    have hlen := Memory.readBytes_length hbs
    have hlt : ofBytes bs < 2 ^ 64 := by simpa [hlen] using ofBytes_lt_two_pow bs
    rw [hbs, entryBytes, BitVec.toNat_ofNat, Nat.mod_eq_of_lt hlt, ← hlen, toBytes_ofBytes]
  · intro h
    rw [h, Option.map_some, ofBytes_entryBytes]

/-- Settles O39: the entry is v exactly when its bytes are those of v, and byte j of v is bits [8j+7 : 8j]. -/
theorem entriesAreLittleEndian : Obligations.EntriesAreLittleEndian := by
  intro m i v
  have hbyte : ∀ j (hj : j < (entryBytes v).length), (entryBytes v)[j] = v.extractLsb' (8 * j) 8 := fun j hj => by
    rw [extractLsb'_eq_ofNat]
    exact toBytes_getElem 8 v.toNat j hj
  rw [Memory.readEntry_eq_some_iff, Memory.readBytes, collect_eq_some_iff]
  constructor
  · rintro ⟨-, h⟩ j hj
    rw [h j (by simpa using hj), hbyte]
  · intro h
    exact ⟨entryBytes_length v, fun j hj => by rw [h j (by simpa using hj), hbyte]⟩

/-! ## Host reads of buffers -/

/-- A read at a good address of a buffer is the buffer read of it (R37, R38). -/
theorem step_readBuf {s : State} {b : Buffer} {a n : Nat} {rest : List Event} (hp : s.params.legal)
    (hg : goodAccess s.params b a n) (h : s.script = .host (.read (busAddress b a) n) :: rest) :
    step s = hostBufRead b a n (setScript rest s) := by
  rw [step_host h, hostAccess, setScript_params, busTarget_buffer hp hg]

/-- IN_BUF at any time, and every buffer with the engine Idle: no read is R99's any-value read. -/
theorem not_anyValue_buffer {b : Buffer} {s : State} (h : b = .inBuf ∨ s.engine = .idle) :
    (outputBuffer b && !accepting s) = false := by
  rcases h with rfl | hidle
  · rfl
  · simp [accepting_of_idle s hidle]

theorem hostBufRead_unwritten {b : Buffer} {a n : Nat} {s : State} (h : b = .inBuf ∨ s.engine = .idle)
    (hn : (bufferOf b s).readBytes a n = none) : hostBufRead b a n s = .fault (.unwrittenByte b) := by
  simp [hostBufRead, not_anyValue_buffer h, hn]

theorem hostBufRead_seen {b : Buffer} {a n : Nat} {s : State} {bs : List Byte} (h : b = .inBuf ∨ s.engine = .idle)
    (hbs : (bufferOf b s).readBytes a n = some bs) (hseen : ∀ j, j < n → s.unseen.hides b (a + j) = false) :
    hostBufRead b a n s = .next (returnRead (BitVec.ofNat 32 (ofBytes bs)) s) := by
  simp [hostBufRead, not_anyValue_buffer h, hbs, hiddenBytes_any_eq_false hseen]

/-- Settles O41: bytes that are all written and seen are returned as their little-endian value; an unwritten one
faults. -/
theorem bufferReadsAreLittleEndian : Obligations.BufferReadsAreLittleEndian := by
  intro s b a n rest hp hg htime hscript
  have hstep := step_readBuf hp hg hscript
  refine ⟨fun raw hraw hseen => ?_, fun hunwritten => ?_⟩
  · have hread : (bufferOf b s).readBytes a n = some ((List.range n).map raw) :=
      collect_eq_some_iff.2 ⟨by simp, fun j hj => by
        have hjn : j < n := by simpa using hj
        simp [hraw j hjn]⟩
    have hlen : ((List.range n).map raw).length = n := by simp
    obtain ⟨hn, -, -⟩ := hg
    refine ⟨BitVec.ofNat 32 (ofBytes ((List.range n).map raw)), ?_, fun j hj => ?_, ?_⟩
    · exact hstep.trans (hostBufRead_seen htime (by rw [bufferOf_setScript, hread]) hseen)
    · rw [extractLsb'_ofBytes (by omega) (by omega)]
      simp
    · have hlt := ofBytes_lt_two_pow ((List.range n).map raw)
      rw [hlen] at hlt
      exact (Nat.mod_le _ _).trans_lt hlt
  · refine hstep.trans (hostBufRead_unwritten htime ?_)
    rw [bufferOf_setScript]
    exact Memory.readBytes_eq_none_iff.2 hunwritten

end Sys2Proof.Machine
end

section
/-! PROOFS of the family 20_memory: the frame and the repeatability of commands; register writes; bus errors; host writes
and reads of buffers; and which outputs the host has not seen. -/

namespace Sys2Proof.Machine

/-! ## The frame of DECODE -/

/-- Settles O14: each of the five is a decodeCommand, which ends with a completion alone or after one write of the N
samples. -/
theorem decodeFrame : Obligations.DecodeFrame := by
  intro i hi s t h
  obtain ⟨W, unpack, hdecode⟩ : ∃ W unpack, decodeCommand W unpack s = .next t := by
    simp only [List.mem_cons, List.not_mem_nil, or_false] at hi
    rcases hi with rfl | rfl | rfl | rfl | rfl <;> exact ⟨_, _, h⟩
  obtain ⟨e, c, -, rfl⟩ | ⟨-, vs, hvs, rfl⟩ := decodeCommand_next hdecode
  · simp
  · have hlen := inSamples_length hvs
    have habove : ∀ a, 8 * (s.frames.toNat * s.channels.toNat) ≤ a →
        (s.smpBuf.writeEntries (vs.map enc64)).read a = s.smpBuf.read a :=
      fun a ha => Memory.read_writeEntries_above _ _ (by simpa [hlen, sampleTotal] using ha)
    simpa using habove

/-! ## Repeated commands

A command leaves what its checks and its samples are read from; its writes, done again after the completion, can be moved
before it, and each of them done twice is the write done once. -/

@[simp] theorem decodeCheck_finish (W : Nat) (e : ErrCode) (c : FmtCause) (s : State) :
    decodeCheck W (finish e c s) = decodeCheck W s := rfl

@[simp] theorem decodeCheck_writeSamples (W : Nat) (vs : List Int) (s : State) :
    decodeCheck W (writeSamples vs s) = decodeCheck W s := rfl

@[simp] theorem inSamples_finish (W : Nat) (unpack : List Byte → Int) (e : ErrCode) (c : FmtCause) (s : State) :
    inSamples W unpack (finish e c s) = inSamples W unpack s := rfl

@[simp] theorem inSamples_writeSamples (W : Nat) (unpack : List Byte → Int) (vs : List Int) (s : State) :
    inSamples W unpack (writeSamples vs s) = inSamples W unpack s := rfl

@[simp] theorem smpSamples_finish (N : Nat) (e : ErrCode) (c : FmtCause) (s : State) :
    smpSamples N (finish e c s) = smpSamples N s := rfl

@[simp] theorem smpSamples_setMaxAbs (N m : Nat) (s : State) : smpSamples N (setMaxAbs m s) = smpSamples N s := rfl

@[simp] theorem smpSamples_writeNormalized (N : Nat) (fs : List Entry) (s : State) :
    smpSamples N (writeNormalized fs s) = smpSamples N s := rfl

@[simp] theorem finish_finish (e : ErrCode) (c : FmtCause) (s : State) : finish e c (finish e c s) = finish e c s := by
  rw [finish, finish_status, Status.complete_complete]
  rfl

@[simp] theorem writeSamples_finish (vs : List Int) (e : ErrCode) (c : FmtCause) (s : State) :
    writeSamples vs (finish e c s) = finish e c (writeSamples vs s) := rfl

@[simp] theorem setMaxAbs_finish (m : Nat) (e : ErrCode) (c : FmtCause) (s : State) :
    setMaxAbs m (finish e c s) = finish e c (setMaxAbs m s) := rfl

@[simp] theorem writeNormalized_finish (fs : List Entry) (e : ErrCode) (c : FmtCause) (s : State) :
    writeNormalized fs (finish e c s) = finish e c (writeNormalized fs s) := rfl

@[simp] theorem setMaxAbs_writeNormalized (m : Nat) (fs : List Entry) (s : State) :
    setMaxAbs m (writeNormalized fs s) = writeNormalized fs (setMaxAbs m s) := rfl

@[simp] theorem setMaxAbs_setMaxAbs (m : Nat) (s : State) : setMaxAbs m (setMaxAbs m s) = setMaxAbs m s := rfl

@[simp] theorem writeSamples_writeSamples (vs : List Int) (s : State) :
    writeSamples vs (writeSamples vs s) = writeSamples vs s := by
  simp [writeSamples, Memory.writeEntries_writeEntries]

@[simp] theorem writeNormalized_writeNormalized (fs : List Entry) (s : State) :
    writeNormalized fs (writeNormalized fs s) = writeNormalized fs s := by
  simp [writeNormalized, Memory.writeEntries_writeEntries]

theorem decodeCommand_again {W : Nat} {unpack : List Byte → Int} {s t : State}
    (h : decodeCommand W unpack s = .next t) : decodeCommand W unpack t = .next t := by
  obtain ⟨e, c, hc, rfl⟩ | ⟨hc, vs, hvs, rfl⟩ := decodeCommand_next h
  · simp [decodeCommand, hc]
  · simp [decodeCommand, hc, hvs]

theorem execNormalize_again {s t : State} (h : execNormalize s = .next t) : execNormalize t = .next t := by
  obtain ⟨hcap, rfl⟩ | ⟨hcap, ss, hss, ⟨h0, rfl⟩ | ⟨h0, rfl⟩⟩ := execNormalize_next h
  · simp [execNormalize, hcap]
  · simp [execNormalize, not_lt.2 hcap, hss, normalizeSamples, h0]
  · simp [execNormalize, not_lt.2 hcap, hss, normalizeSamples, h0]

theorem exec_again {i : Instr} {s t : State} (h : exec i s = .next t) : exec i t = .next t := by
  cases i with
  | decodeI8 => exact decodeCommand_again h
  | decodeI16 => exact decodeCommand_again h
  | decodeI24 => exact decodeCommand_again h
  | decodeI32 => exact decodeCommand_again h
  | decodeI64 => exact decodeCommand_again h
  | decodeBadWidth width =>
    obtain rfl : finish .formatError .unsupportedWidth s = t := by simpa [exec, execDecodeBadWidth] using h
    simp [exec, execDecodeBadWidth]
  | normalize => exact execNormalize_again h

/-- Settles O27: no command writes what its checks and samples are read from, and each of its writes done twice is the
write done once. -/
theorem commandsAreRepeatable : Obligations.CommandsAreRepeatable := by
  intro w s t h
  unfold runCommand at h ⊢
  cases hd : decodeWord w with
  | command i =>
    rw [hd] at h
    exact exec_again h
  | illegal why =>
    obtain rfl : finish .illegalCommand .none s = t := by simpa [hd] using h
    simp

/-! ## Register writes -/

/-- A write to a RW register with the engine Idle writes that register only; SAMPLE_COUNT is then seen (R41, R96). -/
theorem hostRegWrite_readWrite_of_idle {s : State} (v : Word) (h : s.engine = .idle) :
    hostRegWrite .channels v s = .next { s with channels := v } ∧
      hostRegWrite .frames v s = .next { s with frames := v } ∧
      hostRegWrite .inLen v s = .next { s with inLen := v } ∧
      hostRegWrite .sampleCount v s =
        .next { s with sampleCount := v, unseen := { s.unseen with count := false } } := by
  simp [hostRegWrite, readOnlyRegister, accepting_of_idle s h]

/-- Settles O36: each offset is its register's, and a write to it is an acceptance, a register write or ignored. -/
theorem registerWriteRights : Obligations.RegisterWriteRights := by
  intro s v rest hidle
  obtain ⟨hchannels, hframes, hinLen, hcount⟩ := hostRegWrite_readWrite_of_idle (s := setScript rest s) v hidle
  refine ⟨fun h => ⟨_, step_ctrlWrite_of_idle h hidle, rfl⟩, fun h => ?_, fun h => ?_, fun h => ?_,
    fun h => ⟨false, ?_⟩, fun off hoff h => ?_⟩
  · exact (step_writeReg (r := .channels) h).trans hchannels
  · exact (step_writeReg (r := .frames) h).trans hframes
  · exact (step_writeReg (r := .inLen) h).trans hinLen
  · exact (step_writeReg (r := .sampleCount) h).trans hcount
  · obtain ⟨r, hr, rfl⟩ : ∃ r, readOnlyRegister r = true ∧ off = registerOffset r := by
      simp only [List.mem_cons, List.not_mem_nil, or_false] at hoff
      rcases hoff with rfl | rfl | rfl | rfl | rfl
      exacts [⟨.status, rfl, rfl⟩, ⟨.maxAbsLo, rfl, rfl⟩, ⟨.maxAbsHi, rfl, rfl⟩, ⟨.inCap, rfl, rfl⟩,
        ⟨.sampleCap, rfl, rfl⟩]
    exact (step_writeReg h).trans (hostRegWrite_readOnly v _ hr)

/-- Settles O46: the account after a STATUS read is empty exactly when the read shows DONE (R47). -/
theorem statusReadAcquires : Obligations.StatusReadAcquires := by
  intro s rest h
  refine ⟨_, (step_readReg (r := .status) h).trans (hostRegRead_status _), fun hbusy hdone => ?_, fun hnot => ?_⟩
  · have hunseen : (returnStatus (setScript rest s)).unseen = Unseen.none := by simp [Status.showsDone, hbusy, hdone]
    rw [hunseen]
    exact ⟨rfl, Unseen.none_hides, Unseen.none_hidesRegister⟩
  · rcases hnot with hbusy | hdone
    · simp [Status.showsDone, hbusy]
    · simp [Status.showsDone, hdone]

/-! ## The bus -/

/-- The offset of a register is the only one that names it (R16). -/
theorem registerAt_eq_some_iff {off : Nat} {r : HostReg} :
    registerAt off = some r ↔ off = (registerOffset r).toNat := by
  constructor
  · intro h
    unfold registerAt at h
    repeat' split at h
    all_goals cases h
    all_goals assumption
  · rintro rfl
    exact registerAt_registerOffset r

/-- A register access that is not of 4 bytes at a multiple of 4, or names no register, is a bus error (R39, R40). -/
theorem registerTarget_error {off size : Nat} (h : size ≠ 4 ∨ off % 4 ≠ 0 ∨ registerAt off = none) :
    ∃ k, registerTarget off size = .error k := by
  unfold registerTarget
  split
  · exact ⟨_, rfl⟩
  · split
    · exact ⟨_, rfl⟩
    · rw [(h.resolve_left ‹_›).resolve_left ‹_›]
      exact ⟨_, rfl⟩

theorem registerTarget_eq_register {off size : Nat} {r : HostReg} (h : registerTarget off size = .register r) :
    size = 4 ∧ off = (registerOffset r).toNat := by
  unfold registerTarget at h
  repeat' split at h
  all_goals cases h
  exact ⟨not_not.1 ‹_›, registerAt_eq_some_iff.1 ‹_›⟩

theorem registerTarget_ne_buffer {off size : Nat} (b : Buffer) (a : Nat) : registerTarget off size ≠ .buffer b a := by
  unfold registerTarget
  repeat' split
  all_goals simp

/-- A buffer access reaches its bytes or is a bus error (R39, R40). -/
theorem bufferTarget_cases (p : Params) (b : Buffer) (a n : Nat) :
    (goodAccess p b a n ∧ bufferTarget p b a n = .buffer b a) ∨
      (¬ goodAccess p b a n ∧ ∃ k, bufferTarget p b a n = .error k) := by
  unfold bufferTarget goodAccess
  split
  · exact .inr ⟨by omega, _, rfl⟩
  · split
    · exact .inr ⟨by omega, _, rfl⟩
    · split
      · exact .inr ⟨by omega, _, rfl⟩
      · exact .inl ⟨by omega, rfl⟩

/-- The addresses of the three windows (R38). -/
theorem windowOf_eq_some_iff {addr : Nat} {b : Buffer} {a : Nat} :
    windowOf addr = some (b, a) ↔ addr = windowBase b + a ∧ a < 0x10000000 := by
  constructor
  · intro h
    unfold windowOf at h
    repeat' split at h
    all_goals cases h
    all_goals
      simp only [windowBase]
      omega
  · rintro ⟨rfl, ha⟩
    exact windowOf_windowBase b ha

theorem exists_windowOf {addr : Nat} (hlow : 0x10000000 ≤ addr) (hhigh : addr < 0x40000000) :
    ∃ b a, windowOf addr = some (b, a) := by
  unfold windowOf
  repeat' split
  · exact ⟨_, _, rfl⟩
  · exact ⟨_, _, rfl⟩
  · exact ⟨_, _, rfl⟩
  · omega

/-- Between the register space and the windows, and above them, there is nothing (R40). -/
theorem busTarget_outside {p : Params} {addr size : Nat} (hreg : 0x100 ≤ addr)
    (h : addr < 0x10000000 ∨ 0x40000000 ≤ addr) : busTarget p addr size = .error .outsideWindows := by
  have hnone : windowOf addr = none := by
    unfold windowOf
    rw [if_neg (by omega), if_neg (by omega), if_neg (by omega)]
  rw [busTarget, if_neg (by omega), hnone]

theorem busTarget_of_windowOf {p : Params} {addr size : Nat} {b : Buffer} {a : Nat}
    (h : windowOf addr = some (b, a)) : busTarget p addr size = bufferTarget p b a size := by
  have hbase : 0x10000000 ≤ windowBase b := by cases b <;> decide
  obtain ⟨haddr, -⟩ := windowOf_eq_some_iff.1 h
  rw [busTarget, if_neg (by omega), h]

/-- A window access that is not a good one is a bus error (R39, R40). -/
theorem busTarget_of_not_good {p : Params} {addr n : Nat} {b : Buffer} {a : Nat} (hw : windowOf addr = some (b, a))
    (h : ¬ goodAccess p b a n) : ∃ k, busTarget p addr n = .error k := by
  rw [busTarget_of_windowOf hw]
  obtain ⟨hgood, -⟩ | ⟨-, herr⟩ := bufferTarget_cases p b a n
  · exact absurd hgood h
  · exact herr

theorem busTarget_eq_register {p : Params} {addr : Word} {size : Nat} {r : HostReg}
    (h : busTarget p addr.toNat size = .register r) : addr = registerOffset r ∧ size = 4 := by
  by_cases hreg : addr.toNat < 0x100
  · rw [busTarget, if_pos hreg] at h
    obtain ⟨hsize, haddr⟩ := registerTarget_eq_register h
    exact ⟨BitVec.eq_of_toNat_eq haddr, hsize⟩
  · rw [busTarget, if_neg hreg] at h
    split at h
    · cases h
    · obtain ⟨-, ht⟩ | ⟨-, k, ht⟩ := bufferTarget_cases p _ _ size <;> rw [ht] at h <;> cases h

theorem busTarget_eq_buffer {p : Params} {addr : Word} {size : Nat} {b : Buffer} {a : Nat}
    (h : busTarget p addr.toNat size = .buffer b a) : addr = busAddress b a := by
  by_cases hreg : addr.toNat < 0x100
  · rw [busTarget, if_pos hreg] at h
    exact absurd h (registerTarget_ne_buffer b a)
  · rw [busTarget, if_neg hreg] at h
    split at h
    · cases h
    · obtain ⟨rfl, rfl, -⟩ := bufferTarget_within h
      obtain ⟨haddr, hlt⟩ := windowOf_eq_some_iff.1 ‹_›
      exact BitVec.eq_of_toNat_eq (haddr.trans (busAddress_toNat _ hlt).symm)

/-! ## Bus errors -/

/-- A transaction whose target is a bus error faults in the step that takes it (R40). -/
theorem step_busError {s : State} {x : Transaction} {rest : List Event} (hscript : s.script = .host x :: rest)
    (h : ∃ k, busTarget s.params x.address.toNat x.bytes = .error k) : ∃ k, step s = .fault (.busError k) := by
  obtain ⟨k, hk⟩ := h
  exact ⟨k, (step_host hscript).trans (hostAccess_busError hk)⟩

/-- A write in the NRM window is a bus error whatever its size and alignment (R40). -/
theorem step_nrmWrite {s : State} {addr : Word} {n : Nat} {v : Word} {rest : List Event}
    (hscript : s.script = .host (.write addr n v) :: rest) (hlow : 0x30000000 ≤ addr.toNat)
    (hhigh : addr.toNat < 0x40000000) : ∃ k, step s = .fault (.busError k) := by
  have hw : windowOf addr.toNat = some (.nrmBuf, addr.toNat - 0x30000000) :=
    windowOf_eq_some_iff.2 (by simp only [windowBase]; omega)
  obtain ⟨-, htarget⟩ | ⟨hbad, -⟩ := bufferTarget_cases s.params .nrmBuf (addr.toNat - 0x30000000) n
  · refine ⟨.readOnlyBuffer, ?_⟩
    rw [step_host hscript, hostAccess, setScript_params, busTarget_of_windowOf hw, htarget]
    rfl
  · exact step_busError hscript (busTarget_of_not_good hw hbad)

/-- Settles O42, one case of R40 at a time. -/
theorem busErrors : Obligations.BusErrors := by
  intro s x rest _ hscript h
  obtain ⟨b, a, ha, haddr, hcap⟩ | ⟨hlt, hunlisted⟩ | ⟨hlow, hhigh⟩ | hhigh | ⟨hlow, hhigh, addr, n, v, rfl⟩ := h
  · have hw : windowOf x.address.toNat = some (b, a) :=
      windowOf_eq_some_iff.2 ⟨haddr ▸ busAddress_toNat b ha, ha⟩
    exact step_busError hscript (busTarget_of_not_good hw fun ⟨_, _, hfits⟩ => by omega)
  · have hnone : registerAt x.address.toNat = none := by
      refine Option.eq_none_iff_forall_ne_some.2 fun r hr => hunlisted ?_
      rw [BitVec.eq_of_toNat_eq (registerAt_eq_some_iff.1 hr)]
      cases r <;> decide
    refine step_busError hscript ?_
    rw [busTarget, if_pos hlt]
    exact registerTarget_error (.inr (.inr hnone))
  · exact step_busError hscript ⟨_, busTarget_outside hlow (.inl hhigh)⟩
  · exact step_busError hscript ⟨_, busTarget_outside (by omega) (.inr hhigh)⟩
  · exact step_nrmWrite hscript hlow hhigh

/-- The windows begin at multiples of every size they take, so that an address is as aligned as its byte index
(R38, R39). -/
theorem windowBase_add_mod {n : Nat} (hn : n = 1 ∨ n = 2 ∨ n = 4) (b : Buffer) (a : Nat) :
    (windowBase b + a) % n = a % n := by
  have hbase : n ∣ windowBase b := by rcases hn with rfl | rfl | rfl <;> cases b <;> decide
  rw [Nat.add_mod, Nat.mod_eq_zero_of_dvd hbase, Nat.zero_add, Nat.mod_mod]

/-- Settles O43: such an access is no register access of R39, no good access of a window, or outside every window. -/
theorem widthAndAlignmentErrors : Obligations.WidthAndAlignmentErrors := by
  intro s x rest hscript h
  refine step_busError hscript ?_
  obtain ⟨hlt, hbad⟩ | ⟨hlow, hbad⟩ := h
  · rw [busTarget, if_pos hlt]
    exact registerTarget_error (hbad.imp_right .inl)
  · by_cases hhigh : x.address.toNat < 0x40000000
    · obtain ⟨b, a, hw⟩ := exists_windowOf hlow hhigh
      obtain ⟨haddr, -⟩ := windowOf_eq_some_iff.1 hw
      refine busTarget_of_not_good hw fun ⟨hn, halign, _⟩ => ?_
      rw [haddr, windowBase_add_mod hn] at hbad
      omega
    · exact ⟨_, busTarget_outside (by omega) (.inr (by omega))⟩

/-! ## Host writes of buffers -/

/-- A write at a good address of a buffer is the buffer write of it (R37, R38). -/
theorem step_writeBuf {s : State} {b : Buffer} {a n : Nat} {v : Word} {rest : List Event} (hp : s.params.legal)
    (hg : goodAccess s.params b a n) (h : s.script = .host (.write (busAddress b a) n v) :: rest) :
    step s = hostBufWrite b a n v (setScript rest s) := by
  rw [step_host h, hostAccess, setScript_params, busTarget_buffer hp hg]

theorem hostBufWrite_of_idle {b : Buffer} {s : State} (a n : Nat) (v : Word) (hb : b ≠ .nrmBuf)
    (h : s.engine = .idle) : hostBufWrite b a n v s = .next (hostStore b a (toBytes n v.toNat) s) := by
  simp [hostBufWrite, hb, accepting_of_idle s h]

/-- Settles O40: the write is a store of the little-endian bytes of v, which are seen from then on. -/
theorem bufferWritesAreLittleEndian : Obligations.BufferWritesAreLittleEndian := by
  intro s b a n v rest hp hb hg hidle hscript
  have hstep := (step_writeBuf hp hg hscript).trans (hostBufWrite_of_idle a n v hb hidle)
  rw [hostStore, bufferOf_setScript] at hstep
  refine ⟨(bufferOf b s).store a (toBytes n v.toNat), s.unseen.wrote b a (toBytes n v.toNat), hstep, fun j hj => ?_,
    fun x hx => ?_, fun c x => ?_, Unseen.wrote_count .., Unseen.wrote_smp .., Unseen.wrote_nrm ..⟩
  · rw [Memory.read_store_inside _ (by simpa using hj), toBytes_getElem, extractLsb'_eq_ofNat]
  · exact Memory.read_store_outside _ (by simpa using hx)
  · rw [Unseen.hides_wrote hb, toBytes_length]

/-! ## Reads of unseen outputs -/

/-- With the engine Idle a read of a register that is not defined to the host is a draw (R46(c), R97). -/
theorem step_readReg_unseen {s : State} {r : HostReg} {rest : List Event} (hidle : s.engine = .idle)
    (hunseen : s.unseen.hidesRegister r = true) (h : s.script = .host (.read (registerOffset r) 4) :: rest) :
    step s = .next (returnAny 4 (setScript rest s)) := by
  have hany : anyValueRegister r (setScript rest s) = true := (anyValueRegister_of_idle r hidle).trans hunseen
  rw [step_readReg h]
  exact if_pos hany

/-- Bytes that are all written are read as the list of them (R27). -/
theorem Memory.readBytes_of_written {m : Memory} {a n : Nat} {raw : Nat → Byte}
    (h : ∀ j, j < n → m.read (a + j) = some (raw j)) : m.readBytes a n = some ((List.range n).map raw) := by
  simpa using Memory.readBytes_of_forall (m := m) (a := a) (n := n) (raw := fun x => raw (x - a)) (by simpa using h)

/-- With the engine Idle a read of written bytes of which some are not defined to the host draws those (R46(c), R97). -/
theorem hostBufRead_hidden {b : Buffer} {a n : Nat} {s : State} {bs : List Byte} (hidle : s.engine = .idle)
    (hbs : (bufferOf b s).readBytes a n = some bs) (hhidden : ∃ j, j < n ∧ s.unseen.hides b (a + j) = true) :
    hostBufRead b a n s = .next (returnHidden (hiddenBytes b a n s) bs s) := by
  have hany : (hiddenBytes b a n s).any id = true := by simpa [hiddenBytes] using hhidden
  simp [hostBufRead, not_anyValue_buffer (.inr hidle), hbs, hany]

/-- The value of an overlay has the size of the bytes it stands for, and those that are not hidden are their own. -/
theorem overlay_value {hidden : List Bool} {bs ds : List Byte} (h1 : hidden.length = bs.length)
    (h2 : ds.length = bs.length) (hw : bs.length ≤ 4) :
    (BitVec.ofNat 32 (ofBytes (overlay hidden bs ds))).toNat < 2 ^ (8 * bs.length) ∧
      ∀ (j : Nat) (hj : j < bs.length), hidden[j]? = some false →
        (BitVec.ofNat 32 (ofBytes (overlay hidden bs ds))).extractLsb' (8 * j) 8 = bs[j] := by
  have hlen := overlay_length h1 h2
  constructor
  · exact (Nat.mod_le _ _).trans_lt (hlen ▸ ofBytes_lt_two_pow _)
  · intro j hj hseen
    rw [extractLsb'_ofBytes (by omega) (by omega)]
    exact Option.some.inj (by simpa [hj, hlen] using overlay_getElem? h1 h2 hseen)

/-- Settles O55: the reads of unseen outputs are draws, of a whole register or of the hidden bytes only. -/
theorem unseenOutputReads : Obligations.UnseenOutputReads := by
  intro s rest hp hidle
  refine ⟨fun hcount h => ⟨_, step_readReg_unseen (r := .sampleCount) hidle hcount h⟩, fun hnrm off hoff h => ?_,
    fun b a n hg hscript raw hraw hhidden => ?_⟩
  · simp only [List.mem_cons, List.not_mem_nil, or_false] at hoff
    obtain rfl | rfl := hoff
    · exact ⟨_, step_readReg_unseen (r := .maxAbsLo) hidle hnrm h⟩
    · exact ⟨_, step_readReg_unseen (r := .maxAbsHi) hidle hnrm h⟩
  · have hread := Memory.readBytes_of_written hraw
    have hstep := (step_readBuf hp hg hscript).trans
      (hostBufRead_hidden hidle (by rw [bufferOf_setScript, hread]) hhidden)
    obtain ⟨hn, -, -⟩ := hg
    obtain ⟨hsize, hbytes⟩ := overlay_value (hidden := hiddenBytes b a n (setScript rest s)) (bs := (List.range n).map raw)
      (ds := toBytes ((List.range n).map raw).length (Config.freeWord s.draws).toNat) (by simp [hiddenBytes])
      (by simp) (by simp; omega)
    refine ⟨_, hstep, by simpa using hsize, fun j hj hseen => ?_⟩
    exact (hbytes j (by simpa using hj) (by simp [hiddenBytes, hj, hseen])).trans (by simp)

/-! ## What makes an output seen -/

/-- Accepting a word makes no register seen (R97). -/
theorem Unseen.accept_registers (w : Word) (u : Unseen) :
    (u.count = true → (u.accept w).count = true) ∧ (u.nrm = true → (u.accept w).nrm = true) := by
  unfold Unseen.accept
  cases decodeWord w with
  | illegal why => exact ⟨id, id⟩
  | command i => cases i <;> simp [Unseen.start]

/-- Accepting a word makes no byte seen: a DECODE.Ix forgets the bytes that the host has written (R97). -/
theorem Unseen.accept_hides {u : Unseen} (w : Word) {b : Buffer} {a : Nat} (h : u.hides b a = true) :
    (u.accept w).hides b a = true := by
  cases b with
  | inBuf => exact h
  | nrmBuf => exact (Unseen.accept_registers w u).2 h
  | smpBuf =>
    rcases Unseen.accept_since w u with ⟨hsince, hsmp⟩ | ⟨hsince, hsmp⟩
    · simp [Unseen.hides, hsince, hsmp, Memory.read]
    · simpa [Unseen.hides, hsince, hsmp] using h

/-- What a transaction of the host can make of the account of unseen outputs (R46, R96, R97). -/
inductive AccountEffect (st : Status) (u : Unseen) : Transaction → Unseen → Prop
  /-- Every other access leaves it. -/
  | kept (x : Transaction) : AccountEffect st u x u
  /-- A CTRL write that is accepted. -/
  | accepted (w : Word) : AccountEffect st u (.write (registerOffset .ctrl) 4 w) (u.accept w)
  /-- A SAMPLE_COUNT write. -/
  | countWritten (v : Word) : AccountEffect st u (.write (registerOffset .sampleCount) 4 v) { u with count := false }
  /-- A write to IN_BUF or SMP_BUF. -/
  | stored (b : Buffer) (a n : Nat) (v : Word) (hb : b ≠ .nrmBuf) :
      AccountEffect st u (.write (busAddress b a) n v) (u.wrote b a (toBytes n v.toNat))
  /-- A STATUS read that shows DONE. -/
  | acquired (hdone : st.showsDone = true) : AccountEffect st u (.read (registerOffset .status) 4) Unseen.none

theorem hostRegWrite_account {r : HostReg} {v : Word} {s t : State} (h : hostRegWrite r v s = .next t) :
    AccountEffect s.status s.unseen (.write (registerOffset r) 4 v) t.unseen := by
  unfold hostRegWrite at h
  split at h
  · cases h; exact .kept _
  split at h
  · cases h
  · cases r with
    | ctrl => cases h; exact .accepted v
    | sampleCount => cases h; exact .countWritten v
    | _ => cases h; exact .kept _

theorem hostRegRead_account {r : HostReg} {s t : State} (h : hostRegRead r s = .next t) :
    AccountEffect s.status s.unseen (.read (registerOffset r) 4) t.unseen := by
  by_cases hr : r = .status
  · subst r
    obtain rfl : returnStatus s = t := by simpa [hostRegRead_status] using h
    rw [returnStatus_unseen]
    split
    · exact .acquired ‹_›
    · exact .kept _
  · cases hany : anyValueRegister r s with
    | true =>
      obtain rfl : returnAny 4 s = t := by simpa [hostRegRead, hany] using h
      exact .kept _
    | false =>
      obtain rfl : returnRead (registerValue r s) s = t := by simpa [hostRegRead_value hr hany] using h
      exact .kept _

theorem hostBufWrite_account {b : Buffer} {a n : Nat} {v : Word} {s t : State} (h : hostBufWrite b a n v s = .next t) :
    AccountEffect s.status s.unseen (.write (busAddress b a) n v) t.unseen := by
  unfold hostBufWrite at h
  split at h
  · cases h
  split at h
  · cases h
  · cases h
    rw [hostStore_unseen]
    exact .stored b a n v ‹_›

/-- A read of a buffer leaves the account. -/
theorem hostBufRead_unseen {b : Buffer} {a n : Nat} {s t : State} (h : hostBufRead b a n s = .next t) :
    t.unseen = s.unseen := by
  unfold hostBufRead at h
  repeat' split at h
  all_goals cases h
  all_goals rfl

/-- All that a host transaction can make of the account. -/
theorem hostAccess_account {x : Transaction} {s t : State} (h : hostAccess x s = .next t) :
    AccountEffect s.status s.unseen x t.unseen := by
  unfold hostAccess at h
  split at h
  · split at h
    · cases h
    · obtain ⟨rfl, rfl⟩ := busTarget_eq_register ‹_›
      exact hostRegWrite_account h
    · obtain rfl := busTarget_eq_buffer ‹_›
      exact hostBufWrite_account h
  · split at h
    · cases h
    · obtain ⟨rfl, rfl⟩ := busTarget_eq_register ‹_›
      exact hostRegRead_account h
    · rw [hostBufRead_unseen h]
      exact .kept _

/-- The engine's turn leaves the account (R45). -/
theorem engineStep_unseen {s t : State} (h : engineStep s = .next t) : t.unseen = s.unseen := by
  obtain ⟨-, rfl⟩ | ⟨cmd, -, hrun⟩ := engineStep_effect h
  · rfl
  · exact (runCommand_effect hrun).unseen_eq

/-- POLL leaves the account but for a STATUS read that shows DONE (R46(b), R59). -/
theorem pollStep_unseen {spins : Nat} {rest : List Event} {s t : State} (h : pollStep spins rest s = .next t) :
    s.status.showsDone = true ∨ t.unseen = s.unseen := by
  by_cases hdone : s.status.showsDone = true
  · exact .inl hdone
  · obtain ⟨es, rfl⟩ | ⟨cmd, -, hrun⟩ := pollStep_next h
    · exact .inr (by simp [hdone])
    · exact .inr (runCommand_effect hrun).unseen_eq

/-- Every way a step can leave the account of unseen outputs: a reset, a POLL that reads DONE, a host transaction,
unchanged. -/
theorem step_account {s t : State} (h : step s = .next t) :
    (∃ rest, s.script = .reset :: rest) ∨
      (s.status.showsDone = true ∧ ∃ spins rest, s.script = .poll spins :: rest) ∨
      (∃ x rest, s.script = .host x :: rest ∧ AccountEffect s.status s.unseen x t.unseen) ∨
      t.unseen = s.unseen := by
  unfold step at h
  split at h
  · exact .inr (.inr (.inr (engineStep_unseen h)))
  · rename_i rest hscript
    exact .inr (.inr (.inr (engineStep_unseen (s := setScript rest s) h)))
  · rename_i x rest hscript
    exact .inr (.inr (.inl ⟨_, rest, hscript, hostAccess_account (s := setScript rest s) h⟩))
  · rcases pollStep_unseen h with hdone | hkept
    · exact .inr (.inl ⟨hdone, _, _, ‹_›⟩)
    · exact .inr (.inr (.inr hkept))
  · exact .inl ⟨_, ‹_›⟩

/-- Settles O56, by the ways a step can leave the account. -/
theorem onlyDoneOrOwnWriteMakesSeen : Obligations.OnlyDoneOrOwnWriteMakesSeen := by
  intro s t h
  have hshows : s.status.showsDone = true → s.status.busy = false ∧ s.status.done = true := by simp [Status.showsDone]
  obtain hreset | ⟨hdone, hpoll⟩ | ⟨x, rest, hscript, heff⟩ | hkept := step_account h
  · exact .inl hreset
  · obtain ⟨hbusy, hdone⟩ := hshows hdone
    exact .inr (.inl ⟨hbusy, hdone, .inr hpoll⟩)
  · generalize t.unseen = u at heff ⊢
    cases heff with
    | kept => exact .inr (.inr ⟨id, .inl, fun b a => .inl⟩)
    | accepted w =>
      obtain ⟨hcount, hnrm⟩ := Unseen.accept_registers w s.unseen
      exact .inr (.inr ⟨hnrm, fun hc => .inl (hcount hc), fun b a hh => .inl (Unseen.accept_hides w hh)⟩)
    | countWritten v =>
      exact .inr (.inr ⟨id, fun _ => .inr ⟨v, rest, hscript⟩, fun b a hh => .inl (by cases b <;> exact hh)⟩)
    | stored b a n v hb =>
      refine .inr (.inr ⟨fun hn => by simpa using hn, fun hc => .inl (by simpa using hc), fun c x hh => ?_⟩)
      rw [Unseen.hides_wrote hb, toBytes_length]
      split
      · obtain ⟨rfl, hle, hlt⟩ := ‹c = b ∧ _›
        exact .inr ⟨a, n, v, rest, hscript, hle, hlt⟩
      · exact .inl hh
    | acquired hdone =>
      obtain ⟨hbusy, hdone⟩ := hshows hdone
      exact .inr (.inl ⟨hbusy, hdone, .inl ⟨rest, hscript⟩⟩)
  · rw [hkept]
    exact .inr (.inr ⟨id, .inl, fun b a => .inl⟩)

end Sys2Proof.Machine
end

section
/-! PROOFS of the family 30_encoding: command words and their fields, the word and mask table of R53, words that are no
command, and POLL. -/

namespace Sys2Proof

/-! ## The DECODE command of a WIDTH -/

/-- Every WIDTH selects a command that some word stands for (R51, R71). -/
theorem decodeOfWidth_wellFormed (width : BitVec 8) : (decodeOfWidth width).wellFormed = true := by
  unfold decodeOfWidth
  repeat' split
  all_goals simp_all [Instr.wellFormed, supportedWidth]

/-- The word of the command that a WIDTH selects has that WIDTH (R51). -/
theorem encode_decodeOfWidth (width : BitVec 8) : encode (decodeOfWidth width) = commandWord 0x1 width := by
  unfold decodeOfWidth
  repeat' split
  all_goals simp_all [encode]

theorem decodeOfWidth_of_unsupported {width : BitVec 8} (h : supportedWidth width = false) :
    decodeOfWidth width = .decodeBadWidth width := by
  simp_all [supportedWidth, decodeOfWidth]

/-! ## What a word decodes to -/

theorem decodeWord_decode (width : BitVec 8) :
    decodeWord (commandWord 0x1 width) = .command (decodeOfWidth width) := by
  simp [decodeWord_commandWord]

theorem decodeWord_normalize : decodeWord (commandWord 0x2 0) = .command .normalize := by
  simp [decodeWord_commandWord]

/-- The two kinds of command word: a DECODE of the word's own WIDTH, and NORMALIZE with WIDTH 0 (R50, R51). -/
theorem decodeWord_eq_command {w : Word} {i : Instr} (h : decodeWord w = .command i) :
    (commandWord 0x1 (widthField w) = w ∧ i = decodeOfWidth (widthField w)) ∨
      (commandWord 0x2 0 = w ∧ i = .normalize) := by
  unfold decodeWord at h
  split at h
  · cases h
  rename_i hrsv
  obtain ⟨h0, h1⟩ : rsv0Field w = 0 ∧ rsv1Field w = 0 := by simpa using hrsv
  have hw := commandWord_of_fields w h0 h1
  split at h
  · rename_i hop
    cases h
    exact .inl ⟨hop ▸ hw, rfl⟩
  split at h
  · rename_i hop
    split at h
    · rename_i hwidth
      cases h
      rw [hop, hwidth] at hw
      exact .inr ⟨hw, rfl⟩
    · cases h
  · cases h

/-- Settles O1: the word of a command is a DECODE word of its WIDTH, or NORMALIZE's, and decodes by that WIDTH. -/
theorem decodeOfEncode : Obligations.DecodeOfEncode := by
  intro i hwf
  cases i with
  | decodeI8 => exact decodeWord_decode 1
  | decodeI16 => exact decodeWord_decode 2
  | decodeI24 => exact decodeWord_decode 3
  | decodeI32 => exact decodeWord_decode 4
  | decodeI64 => exact decodeWord_decode 8
  | decodeBadWidth width =>
    have hunsupported : supportedWidth width = false := by simpa [Instr.wellFormed] using hwf
    rw [encode, decodeWord_decode, decodeOfWidth_of_unsupported hunsupported]
  | normalize => exact decodeWord_normalize

/-- Settles O2, by the two kinds of command word. -/
theorem encodeOfDecode : Obligations.EncodeOfDecode := by
  intro w i h
  obtain ⟨hw, rfl⟩ | ⟨hw, rfl⟩ := decodeWord_eq_command h
  · exact ⟨decodeOfWidth_wellFormed _, (encode_decodeOfWidth _).trans hw⟩
  · exact ⟨rfl, hw⟩

/-- Decoding and encoding are inverse to each other on well-formed commands and their words (R53). -/
theorem decodeWord_eq_command_iff {w : Word} {i : Instr} :
    decodeWord w = .command i ↔ i.wellFormed = true ∧ encode i = w := by
  refine ⟨encodeOfDecode w i, ?_⟩
  rintro ⟨hwf, rfl⟩
  exact decodeOfEncode i hwf

/-! ## The word and mask table -/

/-- A command all of whose words are one word of the table. -/
theorem decodeWord_eq_command_iff_eq {i : Instr} {v : Word} (hwf : i.wellFormed = true) (hv : encode i = v) (w : Word) :
    decodeWord w = .command i ↔ w = v := by
  rw [decodeWord_eq_command_iff, hv]
  exact ⟨fun h => h.2.symm, fun h => ⟨hwf, h.symm⟩⟩

/-! The mask of the BADWIDTH row keeps every field but WIDTH (R49, R53). -/

theorem opField_and_mask (w : Word) : opField (w &&& 0xFFFF00FF) = opField w :=
  BitVec.extractLsb'_and.trans BitVec.and_allOnes

theorem rsv0Field_and_mask (w : Word) : rsv0Field (w &&& 0xFFFF00FF) = rsv0Field w :=
  BitVec.extractLsb'_and.trans BitVec.and_allOnes

theorem widthField_and_mask (w : Word) : widthField (w &&& 0xFFFF00FF) = 0 :=
  BitVec.extractLsb'_and.trans BitVec.and_zero

theorem rsv1Field_and_mask (w : Word) : rsv1Field (w &&& 0xFFFF00FF) = rsv1Field w :=
  BitVec.extractLsb'_and.trans BitVec.and_allOnes

/-- The words that match the BADWIDTH row's word under its mask are the DECODE words, supported WIDTH or not (R53). -/
theorem and_mask_eq_iff (w : Word) : w &&& 0xFFFF00FF = 0x00000001 ↔ commandWord 0x1 (widthField w) = w := by
  constructor
  · intro h
    have hop : opField w = 0x1 := by rw [← opField_and_mask, h]; decide
    have h0 : rsv0Field w = 0 := by rw [← rsv0Field_and_mask, h]; decide
    have h1 : rsv1Field w = 0 := by rw [← rsv1Field_and_mask, h]; decide
    exact hop ▸ commandWord_of_fields w h0 h1
  · intro h
    have hop : opField w = 0x1 := by rw [← h, opField_commandWord]
    have h0 : rsv0Field w = 0 := by rw [← h, rsv0Field_commandWord]
    have h1 : rsv1Field w = 0 := by rw [← h, rsv1Field_commandWord]
    rw [← commandWord_of_fields (w &&& 0xFFFF00FF) ((rsv0Field_and_mask w).trans h0) ((rsv1Field_and_mask w).trans h1),
      opField_and_mask, widthField_and_mask, hop]
    decide

/-- A DECODE word of an unsupported WIDTH is none of the five DECODE.Ix words (R51, R53). -/
theorem supportedWidth_eq_false_iff (width : BitVec 8) :
    supportedWidth width = false ↔
      commandWord 0x1 width ≠ 0x00000101 ∧ commandWord 0x1 width ≠ 0x00000201 ∧ commandWord 0x1 width ≠ 0x00000301 ∧
        commandWord 0x1 width ≠ 0x00000401 ∧ commandWord 0x1 width ≠ 0x00000801 := by
  have hinj (v : BitVec 8) : commandWord 0x1 width = commandWord 0x1 v ↔ width = v :=
    ⟨fun h => by simpa [widthField_commandWord] using congrArg widthField h, fun h => h ▸ rfl⟩
  have h1 : commandWord 0x1 1 = 0x00000101 := by decide
  have h2 : commandWord 0x1 2 = 0x00000201 := by decide
  have h3 : commandWord 0x1 3 = 0x00000301 := by decide
  have h4 : commandWord 0x1 4 = 0x00000401 := by decide
  have h8 : commandWord 0x1 8 = 0x00000801 := by decide
  rw [← h1, ← h2, ← h3, ← h4, ← h8]
  simp only [ne_eq, hinj]
  simp [supportedWidth, and_assoc]

/-- The words that decode to a command: NORMALIZE's and those that match the mask (R53). -/
theorem exists_decodeWord_eq_command_iff (w : Word) :
    (∃ i, decodeWord w = .command i) ↔ w = 0x00000002 ∨ w &&& 0xFFFF00FF = 0x00000001 := by
  have hnormalize : commandWord 0x2 0 = 0x00000002 := by decide
  rw [and_mask_eq_iff, ← hnormalize]
  constructor
  · rintro ⟨i, h⟩
    obtain ⟨hw, -⟩ | ⟨hw, -⟩ := decodeWord_eq_command h
    · exact .inr hw
    · exact .inl hw.symm
  · rintro (rfl | hw)
    · exact ⟨_, decodeWord_normalize⟩
    · exact ⟨_, hw ▸ decodeWord_decode (widthField w)⟩

/-- A word is ILLEGAL_COMMAND exactly when it decodes to no command (R52). -/
theorem exists_decodeWord_eq_illegal_iff (w : Word) :
    (∃ why, decodeWord w = .illegal why) ↔ ¬ ∃ i, decodeWord w = .command i := by
  cases decodeWord w <;> simp

/-- Settles O3: six rows are one word each, BADWIDTH's words match the mask and have an unsupported WIDTH, and the other
words decode to no command. -/
theorem commandWordsAreTheTable : Obligations.CommandWordsAreTheTable := by
  intro w
  refine ⟨decodeWord_eq_command_iff_eq rfl (by decide) w, decodeWord_eq_command_iff_eq rfl (by decide) w,
    decodeWord_eq_command_iff_eq rfl (by decide) w, decodeWord_eq_command_iff_eq rfl (by decide) w,
    decodeWord_eq_command_iff_eq rfl (by decide) w, decodeWord_eq_command_iff_eq rfl (by decide) w, ?_, ?_⟩
  · have hwf : (Instr.decodeBadWidth (widthField w)).wellFormed = true ↔ supportedWidth (widthField w) = false := by
      simp [Instr.wellFormed]
    rw [← widthField, decodeWord_eq_command_iff, hwf, and_mask_eq_iff, encode, supportedWidth_eq_false_iff, and_comm]
    exact and_congr_right fun hw => by rw [hw]
  · rw [exists_decodeWord_eq_illegal_iff, exists_decodeWord_eq_command_iff, not_or]

/-- A table row's 32 bits decode as the word they are (R36). -/
theorem decodeTableWord_eq (w : Nat) : decodeTableWord 32 w = (decodeWord (tableWord 32 w)).command? := by
  simp [decodeTableWord, decodeBytes_bytesOfWord]

/-- Settles O4: each word decodes by its fields. -/
theorem writtenOutWordsDecode : Obligations.WrittenOutWordsDecode := by
  unfold Obligations.WrittenOutWordsDecode
  simp only [decodeTableWord_eq]
  decide

end Sys2Proof

namespace Sys2Proof.Machine

/-! ## Words that are no command -/

/-- A word that is no command ends with ILLEGAL_COMMAND (R52, R84). -/
theorem runCommand_of_illegal {w : Word} {why : IllegalWord} (s : State) (h : decodeWord w = .illegal why) :
    runCommand w s = .next (errorState .illegalCommand .none s) := by
  unfold runCommand
  rw [h, ← finish_eq_errorState (by decide)]
  rfl

/-- Settles O5: such a word decodes to no command, for it would be that command's word. -/
theorem otherWordsAreIllegalCommand : Obligations.OtherWordsAreIllegalCommand := by
  intro w s hother
  obtain ⟨why, hwhy⟩ := (exists_decodeWord_eq_illegal_iff w).2 fun ⟨i, hi⟩ => hother ⟨i, decodeWord_eq_command_iff.1 hi⟩
  exact runCommand_of_illegal s hwhy

/-! ## A command completes or meets an unwritten byte -/

theorem execNormalize_total (s : State) :
    (∃ t, execNormalize s = .next t) ∨ execNormalize s = .fault (.unwrittenByte .smpBuf) := by
  unfold execNormalize
  split
  · exact .inl ⟨_, rfl⟩
  · split
    · exact .inr rfl
    · exact .inl ⟨_, rfl⟩

/-- All that can stop a command word is an unwritten byte (R70, R80, R101). -/
theorem runCommand_total (w : Word) (s : State) :
    (∃ t, runCommand w s = .next t) ∨ ∃ b, runCommand w s = .fault (.unwrittenByte b) := by
  cases hd : decodeWord w with
  | illegal why => exact .inl ⟨_, runCommand_of_illegal s hd⟩
  | command i =>
    rw [runCommand_of_command s hd]
    cases i with
    | decodeI8 => exact (decodeCommand_total 1 unpackI8 s).imp_right fun h => ⟨_, h⟩
    | decodeI16 => exact (decodeCommand_total 2 unpackI16 s).imp_right fun h => ⟨_, h⟩
    | decodeI24 => exact (decodeCommand_total 3 unpackI24 s).imp_right fun h => ⟨_, h⟩
    | decodeI32 => exact (decodeCommand_total 4 unpackI32 s).imp_right fun h => ⟨_, h⟩
    | decodeI64 => exact (decodeCommand_total 8 unpackI64 s).imp_right fun h => ⟨_, h⟩
    | decodeBadWidth width => exact .inl ⟨_, rfl⟩
    | normalize => exact (execNormalize_total s).imp_right fun h => ⟨_, h⟩

/-! ## POLL -/

/-- A STATUS read that does not show DONE leaves POLL where it is (R59). -/
theorem pollStep_of_not_done {s : State} (spins : Nat) (rest : List Event) (hidle : s.engine = .idle)
    (hdone : s.status.showsDone = false) :
    pollStep spins rest s = .next (setScript (.poll spins :: rest) (returnStatus s)) := by
  simp [pollStep, accepting_of_idle s hidle, hdone]

/-- Settles O52: the STATUS read, and what it makes of the script and of the account. -/
theorem pollWhileIdle : Obligations.PollWhileIdle := by
  intro spins s rest hidle hscript
  rw [step_poll hscript]
  refine ⟨fun hdone => ?_, fun hdone => ?_⟩
  · rw [pollStep_of_done spins rest hidle hdone, setScript_returnStatus, if_pos hdone]
    rfl
  · rw [pollStep_of_not_done spins rest hidle hdone, setScript_returnStatus, ← hscript]
    simp [hdone, withOutside]

/-- Settles O32, by induction on the reads before the completion: each logs one value and leaves the engine Busy; then the
command completes, and the next read shows DONE. -/
theorem pollEnds : Obligations.PollEnds := by
  intro spins
  induction spins with
  | zero =>
    intro s cmd rest hbusy hscript
    have hstep : step s = runCommand cmd s := (step_poll hscript).trans (pollStep_zero_of_busy rest hbusy)
    obtain ⟨u, hrun⟩ | ⟨b, hrun⟩ := runCommand_total cmd s
    · have heff := runCommand_effect hrun
      have hreads : step u = .next (setScript rest (returnStatus u)) := by
        rw [step_poll (heff.script_eq.trans hscript), pollStep_of_done 0 rest heff.engine_idle heff.showsDone]
      refine .inr ⟨setScript rest (returnStatus u), ?_, rfl, heff.engine_idle, ?_, heff.showsDone, rfl, ?_⟩
      · rw [stepN_succ_of_next (hstep.trans hrun), stepN_succ_of_next hreads]
        rfl
      · simp [heff.showsDone]
      · simp [heff.readLog_eq]
    · exact .inl ⟨b, stepN_succ_of_fault (hstep.trans hrun)⟩
  | succ k ih =>
    intro s cmd rest hbusy hscript
    have hspins : step s = .next (setScript (.poll k :: rest) (returnStatus s)) :=
      (step_poll hscript).trans (pollStep_succ_of_busy k rest hbusy)
    rw [stepN_succ_of_next hspins]
    refine (ih (setScript (.poll k :: rest) (returnStatus s)) cmd rest hbusy rfl).imp_right ?_
    rintro ⟨t, hrun, hrest, hidle, hseen, hdone, hlast, hlog⟩
    refine ⟨t, hrun, hrest, hidle, hseen, hdone, hlast, ?_⟩
    rw [hlog, setScript_readLog, returnStatus_readLog, List.length_cons]
    omega

end Sys2Proof.Machine
end

section
/-! PROOFS of the family 40_unpack: the value of a sample from its bytes, the rule of the five DECODE.Ix, and
DECODE.BADWIDTH. -/

namespace Sys2Proof.Machine

/-! ## The value of a sample -/

/-- A byte below a bit pattern, as `ofBytes` weighs them (R36). -/
theorem toNat_append_byte {w : Nat} (x : BitVec w) (b : Byte) : (x ++ b).toNat = b.toNat + 256 * x.toNat := by
  rw [BitVec.toNat_append, ← Nat.shiftLeft_add_eq_or_of_lt b.isLt, Nat.shiftLeft_eq]
  omega

/-- The signed value of bytes is that of the pattern they make (R9). -/
theorem sint_ofBytes {n : Nat} {bs : List Byte} {x : BitVec n} (h : ofBytes bs = x.toNat) :
    sint n (ofBytes bs) = x.toInt := by
  rw [h, sint, BitVec.ofNat_toNat, BitVec.setWidth_eq]

theorem unpackI8_eq (b0 : Byte) : unpackI8 [b0] = b0.toInt :=
  sint_ofBytes (by simp [ofBytes])

theorem unpackI16_eq (b0 b1 : Byte) : unpackI16 [b0, b1] = (b1 ++ b0).toInt :=
  sint_ofBytes (by simp [ofBytes, toNat_append_byte])

/-- The zero byte below the sample multiplies it by 2^8, which the shift takes back (R55, R66). -/
theorem unpackI24_eq (b0 b1 b2 : Byte) : unpackI24 [b0, b1, b2] = (b2 ++ b1 ++ b0).toInt := by
  have h : sint 32 (ofBytes [0x00, b0, b1, b2]) = (b2 ++ b1 ++ b0 ++ (0 : Byte)).toInt :=
    sint_ofBytes (by simp [ofBytes, toNat_append_byte])
  rw [unpackI24, h, BitVec.ofNat_eq_ofNat, BitVec.toInt_append_zero, asr, Int.mul_ediv_cancel_left _ (by decide)]

theorem unpackI32_eq (b0 b1 b2 b3 : Byte) : unpackI32 [b0, b1, b2, b3] = (b3 ++ b2 ++ b1 ++ b0).toInt :=
  sint_ofBytes (by simp [ofBytes, toNat_append_byte])

theorem unpackI64_eq (b0 b1 b2 b3 b4 b5 b6 b7 : Byte) :
    unpackI64 [b0, b1, b2, b3, b4, b5, b6, b7] = (b7 ++ b6 ++ b5 ++ b4 ++ b3 ++ b2 ++ b1 ++ b0).toInt :=
  sint_ofBytes (by simp [ofBytes, toNat_append_byte])

/-- A sample of at most 64 bits is stored without loss (R56). -/
theorem toInt_enc64 {w : Nat} (hw : w ≤ 64) (x : BitVec w) : (enc64 x.toInt).toInt = x.toInt :=
  BitVec.toInt_signExtend_of_le hw

/-- Sample j of SMP_BUF after the samples are written (R63). -/
theorem smpRead_writeSamples {vs : List Int} {j : Nat} (hj : j < vs.length) (s : State) :
    smpRead (writeSamples vs s) j = some (enc64 vs[j]).toInt := by
  have h := Memory.readEntry_writeEntries s.smpBuf (vs.map enc64) j (by simpa using hj)
  rw [smpRead, writeSamples_smpBuf, h, List.getElem_map, Option.map_some]

/-! ## The outcomes of a DECODE.Ix -/

section Outcomes

variable {W : Nat} {unpack : List Byte → Int} {s : State}

theorem decodeCheck_zeroChannels (h : s.channels = 0) : decodeCheck W s = some (.formatError, .zeroChannels) := by
  simp [decodeCheck, h]

theorem decodeCheck_truncated (hc : s.channels ≠ 0) (h : s.inLen.toNat < bytesRequired W s) :
    decodeCheck W s = some (.formatError, .truncated) := by
  rw [decodeCheck, if_neg hc, if_pos h]

theorem decodeCheck_excess (hc : s.channels ≠ 0) (h : bytesRequired W s < s.inLen.toNat) :
    decodeCheck W s = some (.formatError, .excess) := by
  rw [decodeCheck, if_neg hc, if_neg (by omega), if_pos h]

theorem decodeCheck_capacity (hc : s.channels ≠ 0) (hl : s.inLen.toNat = bytesRequired W s)
    (h : s.params.inCap < bytesRequired W s ∨ s.params.sampleCap < sampleTotal s) :
    decodeCheck W s = some (.capacityError, .none) := by
  rw [decodeCheck, if_neg hc, if_neg (by omega), if_neg (by omega), if_pos h]

/-- A failed check ends the command with its error (R61, R84). -/
theorem decodeCommand_of_error {e : ErrCode} {c : FmtCause} (h : decodeCheck W s = some (e, c)) :
    decodeCommand W unpack s = .next (errorState e c s) := by
  rw [← finish_eq_errorState (decodeCheck_error h).1]
  simp [decodeCommand, h]

/-- With the checks passed, an unwritten byte faults (R70). -/
theorem decodeCommand_of_unwritten (hc : decodeCheck W s = none) (h : inSamples W unpack s = none) :
    decodeCommand W unpack s = .fault (.unwrittenByte .inBuf) := by
  simp [decodeCommand, hc, h]

/-- With the checks passed, the samples are written and the command completes (R63). -/
theorem decodeCommand_of_samples {vs : List Int} (hc : decodeCheck W s = none) (h : inSamples W unpack s = some vs) :
    decodeCommand W unpack s = .next (finish .ok .none (writeSamples vs s)) := by
  simp [decodeCommand, hc, h]

end Outcomes

/-! ## The rule of each width -/

/-- The whole rule follows from what the W bytes of one sample stand for: a pattern of at most 64 bits. -/
theorem decodeRule_of_bits {W w : Nat} {word : Word} {i : Instr} {unpack : List Byte → Int}
    (bits : (Nat → Byte) → Nat → BitVec w) (hw : w ≤ 64) (hwf : i.wellFormed = true) (hword : encode i = word)
    (hexec : ∀ s, exec i s = decodeCommand W unpack s)
    (hbits : ∀ raw j, unpack ((List.range W).map fun k => raw (W * j + k)) = (bits raw j).toInt) :
    DecodeRule W word (fun raw j => (bits raw j).toInt) i := by
  refine ⟨decodeWord_eq_command_iff.2 ⟨hwf, hword⟩, fun s hp => ?_⟩
  simp only [hexec]
  refine ⟨fun hc => decodeCommand_of_error (decodeCheck_zeroChannels hc),
    fun hc hl => decodeCommand_of_error (decodeCheck_truncated hc hl),
    fun hc hl => decodeCommand_of_error (decodeCheck_excess hc hl),
    fun hc hl hcap => decodeCommand_of_error (decodeCheck_capacity hc hl hcap),
    fun hc hl hin hn hu =>
      decodeCommand_of_unwritten (decodeCheck_eq_none_iff.2 ⟨hc, hl, hin, hn⟩) (inSamples_eq_none_iff.2 hu),
    fun hc hl hin hn raw hraw => ?_⟩
  have hpass : decodeCheck W s = none := decodeCheck_eq_none_iff.2 ⟨hc, hl, hin, hn⟩
  obtain ⟨-, -, -, hmax⟩ := hp
  have hsamples : inSamples W unpack s = some ((List.range (sampleTotal s)).map fun j => (bits raw j).toInt) := by
    simp only [inSamples_of_forall hraw, Nat.mul_comm _ W, hbits]
  refine ⟨_, decodeCommand_of_samples hpass hsamples, by rw [finish_ok]; rfl, ?_,
    fun j (hj : j < sampleTotal s) => ?_, fun a ha => ?_⟩
  · have hlt : sampleTotal s < 2 ^ 32 := by unfold sampleTotal; omega
    simpa [sampleTotal] using Nat.mod_eq_of_lt hlt
  · refine (smpRead_writeSamples (by simpa using hj) s).trans ?_
    rw [List.getElem_map, toInt_enc64 hw, List.getElem_range]
  · exact Memory.read_writeEntries_above _ _ (by simpa [sampleTotal] using ha)

/-- Settles O7: one byte. -/
theorem decodeI8Rule : Obligations.DecodeI8Rule := by
  refine decodeRule_of_bits (fun raw j => raw j) (by decide) rfl (by decide) (fun _ => rfl) fun raw j => ?_
  simpa using unpackI8_eq (raw j)

/-- Settles O8: two bytes, the first the least significant. -/
theorem decodeI16Rule : Obligations.DecodeI16Rule :=
  decodeRule_of_bits _ (by decide) rfl (by decide) (fun _ => rfl) fun _ _ => unpackI16_eq _ _

/-- Settles O9: three bytes, above the zero byte that the shift removes. -/
theorem decodeI24Rule : Obligations.DecodeI24Rule :=
  decodeRule_of_bits _ (by decide) rfl (by decide) (fun _ => rfl) fun _ _ => unpackI24_eq _ _ _

/-- Settles O10: four bytes. -/
theorem decodeI32Rule : Obligations.DecodeI32Rule :=
  decodeRule_of_bits _ (by decide) rfl (by decide) (fun _ => rfl) fun _ _ => unpackI32_eq _ _ _ _

/-- Settles O11: eight bytes. -/
theorem decodeI64Rule : Obligations.DecodeI64Rule :=
  decodeRule_of_bits _ (by decide) rfl (by decide) (fun _ => rfl) fun _ _ => unpackI64_eq _ _ _ _ _ _ _ _

/-! ## DECODE.I64 copies bytes -/

/-- An entry that reads as a value in two memories has the same eight bytes in both (R36). -/
theorem Memory.read_eq_of_readEntry {m m' : Memory} {i : Nat} {v : Entry} (h : m.readEntry i = some v)
    (h' : m'.readEntry i = some v) {k : Nat} (hk : k < 8) : m.read (8 * i + k) = m'.read (8 * i + k) := by
  have hk' : k < (entryBytes v).length := by simpa using hk
  have hbyte {m : Memory} (h : m.readEntry i = some v) : m.read (8 * i + k) = some (entryBytes v)[k] :=
    (collect_eq_some_iff.1 (Memory.readEntry_eq_some_iff.1 h)).2 k hk'
  rw [hbyte h, hbyte h']

/-- A 64-bit sample is encoded as the very entry that its bytes are (R56, R68). -/
theorem inBuf_readEntry_of_inSamples {s : State} {vs : List Int} (h : inSamples 8 unpackI64 s = some vs) {j : Nat}
    (hj : j < vs.length) : s.inBuf.readEntry j = some (enc64 vs[j]) := by
  have hsample := (collect_eq_some_iff.1 h).2 j hj
  rw [Nat.zero_add, Nat.mul_comm] at hsample
  obtain ⟨bs, hbs, hv⟩ := Option.map_eq_some_iff.1 hsample
  rw [← hv, Memory.readEntry, show s.inBuf.readBytes (8 * j) 8 = some bs from hbs, Option.map_some, unpackI64, sint,
    enc64, BitVec.ofInt_toInt]

/-- Settles O12: on success entry j of SMP_BUF is entry j of IN_BUF. -/
theorem decodeI64KeepsBytes : Obligations.DecodeI64KeepsBytes := by
  intro s t h hok a ha
  obtain ⟨e, c, hc, rfl⟩ | ⟨-, vs, hvs, rfl⟩ := decodeCommand_next h
  · exact absurd hok (decodeCheck_error hc).1
  · have hlen : vs.length = s.frames.toNat * s.channels.toNat := inSamples_length hvs
    have hj : a / 8 < vs.length := by omega
    have hout : (s.smpBuf.writeEntries (vs.map enc64)).readEntry (a / 8) = some (enc64 vs[a / 8]) := by
      rw [Memory.readEntry_writeEntries _ _ _ (by simpa using hj), List.getElem_map]
    have hsame := Memory.read_eq_of_readEntry hout (inBuf_readEntry_of_inSamples hvs hj) (Nat.mod_lt a (by decide))
    rwa [Nat.div_add_mod] at hsame

/-! ## DECODE.BADWIDTH -/

/-- Settles O13: a word that matches the mask is a DECODE word of its WIDTH field, and an unsupported WIDTH selects
DECODE.BADWIDTH. -/
theorem decodeBadWidthRule : Obligations.DecodeBadWidthRule := by
  intro w hmask hunsupported
  rw [← widthField] at hunsupported ⊢
  refine ⟨?_, fun s => ?_⟩
  · have hdec := decodeWord_decode (widthField w)
    rwa [(and_mask_eq_iff w).1 hmask, decodeOfWidth_of_unsupported hunsupported] at hdec
  · rw [← finish_eq_errorState (by decide)]
    rfl

end Sys2Proof.Machine
end

section
/-! PROOFS of the family 41_normalize: the range and the scaling of a normalized sample, its sign and its pattern, the
outcomes of NORMALIZE, and what they depend on. -/

namespace Sys2Proof.Machine

/-! ## The scaled sample -/

/-- A rounded quotient is less than one above the exact one (R11). -/
theorem roundMagnitude_mul_lt (mode : TieMode) (a : Nat) {q : Nat} (hq : 0 < q) :
    roundMagnitude mode a q * q < a + q := by
  obtain ⟨r, hr, ⟨hbelow, -⟩ | ⟨habove, hup⟩⟩ := roundMagnitude_cases mode a q hq <;> omega

/-- Rounding does not pass a whole bound of the exact quotient. -/
theorem roundMagnitude_le (mode : TieMode) {a q b : Nat} (hq : 0 < q) (h : a ≤ b * q) : roundMagnitude mode a q ≤ b := by
  have hlt : roundMagnitude mode a q * q < (b + 1) * q := by
    have := roundMagnitude_mul_lt mode a hq
    rw [Nat.succ_mul]
    omega
  exact Nat.le_of_lt_succ (Nat.lt_of_mul_lt_mul_right hlt)

/-- Settles O18: a sample's magnitude is at most m, so that of the quotient at most 10000 = (10000 × m) / m. -/
theorem roundTOfSampleInRange : Obligations.RoundTOfSampleInRange := by
  intro mode x m hm hx
  rw [roundT_natAbs, Int.natAbs_mul]
  exact roundMagnitude_le mode hm (Nat.mul_le_mul_left _ hx)

/-- A sample of magnitude m scales to 10000 with the sample's sign (R77(c)). -/
theorem roundT_of_natAbs_eq (mode : TieMode) {x : Int} {m : Nat} (hm : 0 < m) (hx : x.natAbs = m) :
    roundT mode (10000 * x) m = if 0 < x then 10000 else -10000 := by
  have hmag : roundMagnitude mode (10000 * x).natAbs m = 10000 := by
    rw [Int.natAbs_mul, hx]; exact roundMagnitude_mul mode 10000 m hm
  unfold roundT
  rw [hmag]
  split <;> split <;> omega

/-- A positive factor keeps the sign. -/
theorem natCast_mul_neg_iff {c : Nat} (hc : 0 < c) (x : Int) : (c : Int) * x < 0 ↔ x < 0 :=
  smul_neg_iff_of_pos_left (Int.natCast_pos.2 hc)

/-- Only the ratio counts (R75). -/
theorem roundT_scale (mode : TieMode) {c : Nat} (hc : 0 < c) (p : Int) (q : Nat) :
    roundT mode (c * p) (c * q) = roundT mode p q := by
  simp only [roundT, Int.natAbs_mul, Int.natAbs_natCast, roundMagnitude_scale mode c _ _ hc,
    natCast_mul_neg_iff hc]

/-! ## The pattern of a scaled sample -/

theorem encNorm_one (x : Int) : encNorm 10000 x = 0x3FF0000000000000 := by
  rw [encNorm_of_ne_zero (by decide)]; decide

theorem encNorm_neg_one (x : Int) : encNorm (-10000) x = 0xBFF0000000000000 := by
  rw [encNorm_of_ne_zero (by decide)]; decide

/-- The magnitude bits of k / 10000 are at most those of 1.0: in the binade of 1.0 lies only 10000 / 10000, whose fraction
is 0. -/
theorem binary64Magnitude_le_one {a : Nat} (ha : 0 < a) (hle : a ≤ 10000) :
    binary64Magnitude a 10000 ≤ 0x3FF0000000000000 := by
  obtain ⟨n, F, -, hF, hmag, hhalf, -⟩ := binary64Magnitude_fields ha hle
  rw [hmag]
  rcases Nat.eq_zero_or_pos n with rfl | hn
  · have hone : F = 0 := by omega
    omega
  · omega

theorem encNorm_magnitude_le {k : Int} (hk : k.natAbs ≤ 10000) (x : Int) :
    (encNorm k x).toNat % 2 ^ 63 ≤ 0x3FF0000000000000 := by
  by_cases h0 : k = 0
  · subst h0
    by_cases hx : x < 0
    · rw [encNorm_zero_of_neg hx]; decide
    · rw [encNorm_zero_of_nonneg (by omega)]; decide
  · have hle := binary64Magnitude_le_one (a := k.natAbs) (by omega) hk
    rw [encNorm_of_ne_zero h0, toBinary64_toNat (by omega)]
    omega

/-- The pattern has the sign of the sample, when k is 0 or has it too (R76). -/
theorem encNorm_sign {k x : Int} (hneg : x < 0 → k ≤ 0) (hpos : 0 ≤ x → 0 ≤ k) :
    (encNorm k x).getLsbD 63 = decide (x < 0) := by
  by_cases h0 : k = 0
  · subst h0
    by_cases hx : x < 0
    · rw [encNorm_zero_of_neg hx, decide_eq_true hx]; rfl
    · rw [encNorm_zero_of_nonneg (by omega), decide_eq_false hx]; rfl
  · rw [encNorm_of_ne_zero h0, toBinary64_sign, decide_eq_decide]
    omega

theorem normalizeSample_sign (mode : TieMode) (m : Nat) (x : Int) :
    (normalizeSample mode m x).getLsbD 63 = decide (x < 0) :=
  encNorm_sign (fun h => roundT_neg_or_zero_of_neg (by omega)) (fun h => roundT_nonneg (by omega))

theorem normalizeSample_magnitude_le (mode : TieMode) {m : Nat} {x : Int} (hm : 0 < m) (hx : x.natAbs ≤ m) :
    (normalizeSample mode m x).toNat % 2 ^ 63 ≤ 0x3FF0000000000000 :=
  encNorm_magnitude_le (roundTOfSampleInRange mode x m hm hx) x

theorem normalizeSample_zero (mode : TieMode) {m : Nat} (hm : 0 < m) : normalizeSample mode m 0 = 0 := by
  have hk : (roundT mode (10000 * 0) m).natAbs = 0 := by
    rw [roundT_natAbs]; simpa using roundMagnitude_mul mode 0 m hm
  rw [normalizeSample, Int.natAbs_eq_zero.1 hk, encNorm_zero_of_nonneg (le_refl 0)]

/-- A sample of magnitude m gives exactly 1.0 or -1.0 (R77(c)). -/
theorem normalizeSample_of_natAbs_eq (mode : TieMode) {m : Nat} {x : Int} (hm : 0 < m) (hx : x.natAbs = m) :
    normalizeSample mode m x = if 0 < x then 0x3FF0000000000000 else 0xBFF0000000000000 := by
  rw [normalizeSample, roundT_of_natAbs_eq mode hm hx]
  split
  · exact encNorm_one x
  · exact encNorm_neg_one x

/-- A common factor of the sample and of m drops out (R77(e)). -/
theorem normalizeSample_scale (mode : TieMode) {c : Nat} (hc : 0 < c) (m : Nat) (x : Int) :
    normalizeSample mode (c * m) (c * x) = normalizeSample mode m x := by
  rw [normalizeSample, mul_left_comm, roundT_scale mode hc]
  simp only [normalizeSample, encNorm, natCast_mul_neg_iff hc]

/-- The reduction scales with the samples (R77(e)). -/
theorem maxAbsOf_scale (c : Nat) (ss : List Int) : maxAbsOf (ss.map fun x : Int => c * x) = c * maxAbsOf ss := by
  induction ss with
  | nil => rfl
  | cons x xs ih =>
    simp only [maxAbsOf, List.map_cons, List.foldr_cons] at ih ⊢
    rw [ih, Int.natAbs_mul, Int.natAbs_natCast, Nat.mul_max_mul_left]

/-! ## The outcomes of NORMALIZE -/

section Outcomes

variable {s : State}

theorem execNormalize_of_capacity (h : s.params.sampleCap < s.sampleCount.toNat) :
    execNormalize s = .next (finish .capacityError .none s) := by
  simp [execNormalize, h]

/-- Within the capacity, an unwritten byte of the samples faults (R80). -/
theorem execNormalize_of_unwritten (hcap : s.sampleCount.toNat ≤ s.params.sampleCap)
    (h : smpSamples s.sampleCount.toNat s = none) : execNormalize s = .fault (.unwrittenByte .smpBuf) := by
  simp [execNormalize, not_lt.2 hcap, h]

/-- Within the capacity, written samples are reduced and scaled (R72). -/
theorem execNormalize_of_samples {ss : List Int} (hcap : s.sampleCount.toNat ≤ s.params.sampleCap)
    (h : smpSamples s.sampleCount.toNat s = some ss) : execNormalize s = .next (normalizeSamples ss s) := by
  simp [execNormalize, not_lt.2 hcap, h]

variable {ss : List Int}

theorem normalizeSamples_of_zero (h : maxAbsOf ss = 0) :
    normalizeSamples ss s = finish .divideByZero .none (setMaxAbs 0 s) := if_pos h

theorem normalizeSamples_of_ne_zero (h : maxAbsOf ss ≠ 0) :
    normalizeSamples ss s = finish .ok .none
      (writeNormalized (ss.map (normalizeSample s.params.tieMode (maxAbsOf ss))) (setMaxAbs (maxAbsOf ss) s)) :=
  if_neg h

theorem normalizeSamples_errCode (ss : List Int) (s : State) :
    (normalizeSamples ss s).status.errCode = if maxAbsOf ss = 0 then .divideByZero else .ok := by
  split
  · rw [normalizeSamples_of_zero ‹_›]; rfl
  · rw [normalizeSamples_of_ne_zero ‹_›]; rfl

theorem normalizeSamples_errCode_eq_ok_iff : (normalizeSamples ss s).status.errCode = .ok ↔ maxAbsOf ss ≠ 0 := by
  simp [normalizeSamples_errCode]

/-- MAXABS holds the reduction, which fits it (R29, R73). -/
theorem normalizeSamples_maxAbs (h : maxAbsOf ss ≤ 2 ^ 63) : (normalizeSamples ss s).maxAbs.toNat = maxAbsOf ss := by
  have hfits : maxAbsOf ss % 2 ^ 64 = maxAbsOf ss := Nat.mod_eq_of_lt (by omega)
  by_cases h0 : maxAbsOf ss = 0
  · rw [normalizeSamples_of_zero h0, h0]; rfl
  · simp only [normalizeSamples_of_ne_zero h0, finish_maxAbs, writeNormalized_maxAbs, setMaxAbs_maxAbs,
      BitVec.toNat_ofNat, hfits]

/-- Entry i of NRM_BUF is the pattern of sample i (R72). -/
theorem normalizeSamples_readEntry (h : maxAbsOf ss ≠ 0) {i : Nat} (hi : i < ss.length) :
    (normalizeSamples ss s).nrmBuf.readEntry i = some (normalizeSample s.params.tieMode (maxAbsOf ss) ss[i]) := by
  rw [normalizeSamples_of_ne_zero h, finish_nrmBuf, writeNormalized_nrmBuf, setMaxAbs_nrmBuf,
    Memory.readEntry_writeEntries _ _ _ (by simpa using hi), List.getElem_map]

/-- Bytes past the last sample's entry are as before (R72). -/
theorem normalizeSamples_read_above (h : maxAbsOf ss ≠ 0) {a : Nat} (ha : 8 * ss.length ≤ a) :
    (normalizeSamples ss s).nrmBuf.read a = s.nrmBuf.read a := by
  rw [normalizeSamples_of_ne_zero h]
  exact Memory.read_writeEntries_above _ _ (by simpa using ha)

end Outcomes

/-- A largest magnitude of the samples v 0 .. v (N-1) is their reduction (R73). -/
theorem maxAbsOf_range {N m : Nat} {v : Nat → Int} (hle : ∀ i, i < N → (v i).natAbs ≤ m)
    (hat : m = 0 ∨ ∃ i, i < N ∧ (v i).natAbs = m) : maxAbsOf ((List.range N).map v) = m :=
  maxAbsOf_unique (by simpa using hle) (by simpa using hat)

/-- Settles O15: with the samples read, the clauses are the outcomes of NORMALIZE at the largest magnitude. -/
theorem normalizeRule : Obligations.NormalizeRule := by
  refine ⟨decodeWord_normalize, fun s _ => ⟨fun hcap => ?_, fun hcap hu => ?_, fun hcap v hv hzero => ?_,
    fun hcap v m hv hm hle hat => ?_⟩⟩
  · rw [← finish_eq_errorState (by decide)]
    exact execNormalize_of_capacity hcap
  · exact execNormalize_of_unwritten hcap (smpSamples_eq_none_iff.2 hu)
  · have h0 : maxAbsOf ((List.range s.sampleCount.toNat).map v) = 0 := maxAbsOf_range (by simpa using hzero) (.inl rfl)
    rw [← finish_eq_errorState (by decide)]
    exact (execNormalize_of_samples hcap (smpSamples_of_forall hv)).trans (by rw [normalizeSamples_of_zero h0]; rfl)
  · have hss := smpSamples_of_forall hv
    have hmax := maxAbsOf_range hle (.inr hat)
    have h0 : maxAbsOf ((List.range s.sampleCount.toNat).map v) ≠ 0 := by omega
    refine ⟨_, execNormalize_of_samples hcap hss, ?_, ?_, fun i hi => ?_, fun a ha => ?_⟩
    · rw [normalizeSamples_of_ne_zero h0, finish_ok]; rfl
    · rw [normalizeSamples_maxAbs (maxAbsOf_smpSamples_le hss), hmax]
    · rw [normalizeSamples_readEntry h0 (by simpa using hi), hmax, List.getElem_map, List.getElem_range,
        normalizeSample]
    · exact normalizeSamples_read_above h0 (by simpa using ha)

/-! ## A sample of a successful NORMALIZE -/

/-- On success MAXABS is positive and bounds every sample, and each entry is the pattern of its sample (R72). -/
theorem execNormalize_ok_entry {s t : State} {i : Nat} {x : Int} (h : execNormalize s = .next t)
    (hok : t.status.errCode = .ok) (hi : i < s.sampleCount.toNat) (hx : smpRead s i = some x) :
    0 < t.maxAbs.toNat ∧ x.natAbs ≤ t.maxAbs.toNat ∧
      t.nrmBuf.readEntry i = some (normalizeSample s.params.tieMode t.maxAbs.toNat x) := by
  obtain ⟨-, rfl⟩ | ⟨-, ss, hss, ⟨-, rfl⟩ | ⟨h0, rfl⟩⟩ := execNormalize_next h
  · cases hok
  · cases hok
  · have hlen : i < ss.length := by rwa [smpSamples_length hss]
    obtain rfl : ss[i] = x := Option.some.inj ((smpSamples_getElem hss hlen).symm.trans hx)
    rw [← normalizeSamples_of_ne_zero h0, normalizeSamples_maxAbs (maxAbsOf_smpSamples_le hss)]
    exact ⟨Nat.pos_of_ne_zero h0, natAbs_le_maxAbsOf (List.getElem_mem hlen), normalizeSamples_readEntry h0 hlen⟩

/-- Settles O20: its scaled value is ±10000. -/
theorem maximumNormalizesToOne : Obligations.MaximumNormalizesToOne := by
  intro s t i x h hok hi hx hmax
  obtain ⟨hpos, -, hout⟩ := execNormalize_ok_entry h hok hi hx
  rw [hout, normalizeSample_of_natAbs_eq _ hpos hmax]

/-- Settles O21, from the range and the sign of a normalized sample. -/
theorem normalizedRangeAndSign : Obligations.NormalizedRangeAndSign := by
  intro s t i x h hok hi hx
  obtain ⟨hpos, hle, hout⟩ := execNormalize_ok_entry h hok hi hx
  refine ⟨_, hout, normalizeSample_magnitude_le _ hpos hle, normalizeSample_sign _ _ x, ?_⟩
  rintro rfl
  exact normalizeSample_zero _ hpos

/-! ## What NORMALIZE depends on -/

/-- Settles O22: the reduction takes the factor, which drops out of every quotient. -/
theorem normalizeIsScaleInvariant : Obligations.NormalizeIsScaleInvariant := by
  intro s s' t t' c v hc hp hn hv h h'
  by_cases hcap : s.params.sampleCap < s.sampleCount.toNat
  · cases (execNormalize_of_capacity hcap).symm.trans h
    cases (execNormalize_of_capacity (s := s') (by rwa [hp, hn])).symm.trans h'
    exact ⟨rfl, by simp⟩
  · have hss : smpSamples s.sampleCount.toNat s = some ((List.range s.sampleCount.toNat).map v) :=
      smpSamples_of_forall fun i hi => (hv i hi).1
    have hss' : smpSamples s'.sampleCount.toNat s' =
        some (((List.range s.sampleCount.toNat).map v).map fun x : Int => c * x) := by
      rw [hn, List.map_map]
      exact smpSamples_of_forall fun i hi => (hv i hi).2
    cases (execNormalize_of_samples (by omega) hss).symm.trans h
    cases (execNormalize_of_samples (by rw [hp, hn]; omega) hss').symm.trans h'
    refine ⟨?_, fun hok i hi => ?_⟩
    · simp only [normalizeSamples_errCode, maxAbsOf_scale, Nat.mul_eq_zero, hc.ne', false_or]
    · have h0 := normalizeSamples_errCode_eq_ok_iff.1 hok
      have h0' := maxAbsOf_scale c _ ▸ Nat.mul_ne_zero hc.ne' h0
      rw [normalizeSamples_readEntry h0 (by simpa using hi), normalizeSamples_readEntry h0' (by simpa using hi),
        maxAbsOf_scale, List.getElem_map, normalizeSample_scale _ hc, hp]

/-- Settles O23: the samples read are the same, and the outcome is a function of them and of the parameters. -/
theorem normalizeIgnoresOtherState : Obligations.NormalizeIgnoresOtherState := by
  intro s s' hp hn hread t h
  by_cases hcap : s.params.sampleCap < s.sampleCount.toNat
  · cases (execNormalize_of_capacity hcap).symm.trans h
    exact ⟨_, execNormalize_of_capacity (by rwa [hp, hn]), rfl, by simp⟩
  · have hsame : smpSamples s'.sampleCount.toNat s' = smpSamples s.sampleCount.toNat s := by
      rw [hn]
      exact collect_congr fun j hj => by simpa using hread j hj
    cases hss : smpSamples s.sampleCount.toNat s with
    | none => cases (execNormalize_of_unwritten (by omega) hss).symm.trans h
    | some ss =>
      cases (execNormalize_of_samples (by omega) hss).symm.trans h
      have hlen := smpSamples_length hss
      have hle := maxAbsOf_smpSamples_le hss
      refine ⟨_, execNormalize_of_samples (by rw [hp, hn]; omega) (hsame.trans hss), ?_, fun hok => ⟨?_, fun i hi => ?_⟩⟩
      · rw [normalizeSamples_errCode, normalizeSamples_errCode]
      · exact BitVec.eq_of_toNat_eq (by rw [normalizeSamples_maxAbs hle, normalizeSamples_maxAbs hle])
      · have h0 := normalizeSamples_errCode_eq_ok_iff.1 hok
        rw [normalizeSamples_readEntry h0 (by omega), normalizeSamples_readEntry h0 (by omega), hp]

end Sys2Proof.Machine
end

section
/-! PROOFS of the family 60_exceptions: the first error that applies, and the precision of errors. -/

namespace Sys2Proof.Machine

/-! ## The kinds of command word -/

/-- What a command word is and what it runs: ILLEGAL_COMMAND (R52), DECODE of an unsupported WIDTH (R71), one of the five
DECODE.Ix, all of them one command of their WIDTH (R63), or NORMALIZE (R72). -/
inductive WordRuns (w : Word) : Prop
  | illegal (why : IllegalWord) (hw : decodeWord w = .illegal why)
  | badWidth (width : BitVec 8) (hw : commandWord 0x1 width = w) (hwidth : supportedWidth width = false)
      (hrun : ∀ s, runCommand w s = .next (errorState .formatError .unsupportedWidth s))
  | decode (width : BitVec 8) (unpack : List Byte → Int) (hw : commandWord 0x1 width = w)
      (hwidth : supportedWidth width = true) (hrun : ∀ s, runCommand w s = decodeCommand width.toNat unpack s)
  | normalize (hw : commandWord 0x2 0 = w) (hrun : ∀ s, runCommand w s = execNormalize s)

/-- A supported WIDTH selects the DECODE.Ix that takes samples of so many bytes (R51, R60). -/
theorem exec_decodeOfWidth {width : BitVec 8} (h : supportedWidth width = true) :
    ∃ unpack, ∀ s, exec (decodeOfWidth width) s = decodeCommand width.toNat unpack s := by
  have hcases : width = 1 ∨ width = 2 ∨ width = 3 ∨ width = 4 ∨ width = 8 := by
    simpa [supportedWidth, or_assoc] using h
  obtain rfl | rfl | rfl | rfl | rfl := hcases
  · exact ⟨unpackI8, fun _ => rfl⟩
  · exact ⟨unpackI16, fun _ => rfl⟩
  · exact ⟨unpackI24, fun _ => rfl⟩
  · exact ⟨unpackI32, fun _ => rfl⟩
  · exact ⟨unpackI64, fun _ => rfl⟩

theorem wordRuns (w : Word) : WordRuns w := by
  cases hd : decodeWord w with
  | illegal why => exact .illegal why hd
  | command i =>
    have hrun s := runCommand_of_command s hd
    obtain ⟨hw, rfl⟩ | ⟨hw, rfl⟩ := decodeWord_eq_command hd
    · cases hwidth : supportedWidth (widthField w) with
      | false =>
        obtain ⟨-, hbad⟩ := decodeBadWidthRule w ((and_mask_eq_iff w).2 hw) hwidth
        exact .badWidth _ hw hwidth fun s => by rw [hrun, decodeOfWidth_of_unsupported hwidth]; exact hbad s
      | true =>
        obtain ⟨unpack, hexec⟩ := exec_decodeOfWidth hwidth
        exact .decode _ unpack hw hwidth fun s => (hrun s).trans (hexec s)
    · exact .normalize hw hrun

/-! ## The first error of each kind of word -/

/-- The words of the first test of R85 are those that decode to no command (R52, R53). -/
theorem firstError_of_illegal {w : Word} {why : IllegalWord} (s : State) (h : decodeWord w = .illegal why) :
    firstError w s = (.illegalCommand, .none) := by
  refine if_pos ?_
  unfold decodeWord opField rsv0Field widthField rsv1Field at h
  split at h
  · tauto
  split at h
  · cases h
  split at h
  · split at h
    · cases h
    · tauto
  · tauto

/-- The fields that R85's tests look at, of a word built from OP and WIDTH (R49). -/
theorem extractLsb'_commandWord (op : BitVec 4) (width : BitVec 8) :
    (commandWord op width).extractLsb' 0 4 = op ∧ (commandWord op width).extractLsb' 4 4 = 0 ∧
      (commandWord op width).extractLsb' 8 8 = width ∧ (commandWord op width).extractLsb' 16 16 = 0 :=
  ⟨opField_commandWord op width, rsv0Field_commandWord op width, widthField_commandWord op width,
    rsv1Field_commandWord op width⟩

theorem supportedWidth_iff_toNat_mem (width : BitVec 8) :
    supportedWidth width = true ↔ width.toNat ∈ [1, 2, 3, 4, 8] := by
  simp [supportedWidth, BitVec.toNat_eq, or_assoc]

/-- A DECODE word meets UNSUPPORTED_WIDTH, or else the first of R61's checks that fails (R85). -/
theorem firstError_decode (width : BitVec 8) (s : State) :
    firstError (commandWord 0x1 width) s =
      if supportedWidth width then (decodeCheck width.toNat s).getD (.ok, .none)
      else (.formatError, .unsupportedWidth) := by
  simp only [firstError, extractLsb'_commandWord, ← supportedWidth_iff_toNat_mem]
  cases supportedWidth width with
  | false => simp
  | true =>
    by_cases hc : s.channels = 0
    · simp [hc, decodeCheck_zeroChannels hc]
    obtain hl | hl | hl := lt_trichotomy s.inLen.toNat (s.frames.toNat * s.channels.toNat * width.toNat)
    · simpa [hl, decodeCheck_truncated hc hl] using hc
    · by_cases hcap : s.params.inCap < s.frames.toNat * s.channels.toNat * width.toNat ∨
          s.params.sampleCap < s.frames.toNat * s.channels.toNat
      · simpa [hl, hcap, decodeCheck_capacity hc hl hcap] using hc
      · have hpass : decodeCheck width.toNat s = none :=
          decodeCheck_eq_none_iff.2 ⟨hc, hl, not_lt.1 (not_or.1 hcap).1, not_lt.1 (not_or.1 hcap).2⟩
        simpa [hl, hcap, hpass] using hc
    · simpa [hl, hl.not_gt, decodeCheck_excess hc hl] using hc

/-- NORMALIZE meets CAPACITY_ERROR, or else DIVIDE_BY_ZERO when every sample is written and 0 (R74, R85). -/
theorem firstError_normalize (s : State) :
    firstError (commandWord 0x2 0) s =
      if s.params.sampleCap < s.sampleCount.toNat then (.capacityError, .none)
      else if ∀ i, i < s.sampleCount.toNat → smpRead s i = some 0 then (.divideByZero, .none)
      else (.ok, .none) := by
  simp [firstError, extractLsb'_commandWord]

/-! ## What a command reports -/

/-- A result whose completion reports the error `r`, and which stops only when `r` is success (R85). -/
def Reports (res : Result) (r : ErrCode × FmtCause) : Prop :=
  (∀ t, res = .next t → (t.status.errCode, t.status.fmtCause) = r) ∧ (∀ f, res = .fault f → r = (.ok, .none))

theorem reports_next {t : State} {r : ErrCode × FmtCause} (h : (t.status.errCode, t.status.fmtCause) = r) :
    Reports (.next t) r := by
  refine ⟨fun u hu => ?_, fun _ hf => nomatch hf⟩
  cases hu
  exact h

theorem reports_fault (f : Fault) : Reports (.fault f) (.ok, .none) := ⟨fun _ h => (nomatch h), fun _ _ => rfl⟩

/-- A DECODE.Ix reports the check that fails; with none it succeeds or stops at an unwritten byte (R61, R70). -/
theorem decodeCommand_reports (W : Nat) (unpack : List Byte → Int) (s : State) :
    Reports (decodeCommand W unpack s) ((decodeCheck W s).getD (.ok, .none)) := by
  unfold decodeCommand
  split
  · rename_i e c hc
    exact reports_next (by simp [hc])
  · rename_i hc
    rw [hc]
    split
    · exact reports_fault _
    · exact reports_next rfl

/-- The samples read are all 0 exactly when their largest magnitude is 0 (R73). -/
theorem maxAbsOf_smpSamples_eq_zero_iff {N : Nat} {s : State} {ss : List Int} (h : smpSamples N s = some ss) :
    maxAbsOf ss = 0 ↔ ∀ i, i < N → smpRead s i = some 0 := by
  constructor
  · intro h0 i hi
    have hlen : i < ss.length := by rwa [smpSamples_length h]
    have hle := natAbs_le_maxAbsOf (List.getElem_mem hlen)
    have hsample : ss[i] = 0 := by omega
    rw [smpSamples_getElem h hlen, hsample]
  · intro hzero
    have hss := h.symm.trans (smpSamples_of_forall (v := fun _ => 0) hzero)
    rw [Option.some.inj hss]
    exact maxAbsOf_range (by simp) (.inl rfl)

/-- NORMALIZE reports as R85 orders; an unwritten sample is not 0 (R80). -/
theorem execNormalize_reports (s : State) : Reports (execNormalize s) (firstError (commandWord 0x2 0) s) := by
  rw [firstError_normalize]
  by_cases hcap : s.params.sampleCap < s.sampleCount.toNat
  · rw [execNormalize_of_capacity hcap, if_pos hcap]
    exact reports_next rfl
  · rw [if_neg hcap]
    cases hss : smpSamples s.sampleCount.toNat s with
    | none =>
      have hnot : ¬ ∀ i, i < s.sampleCount.toNat → smpRead s i = some 0 := fun hzero => by
        cases hss.symm.trans (smpSamples_of_forall (v := fun _ => 0) hzero)
      rw [execNormalize_of_unwritten (by omega) hss, if_neg hnot]
      exact reports_fault _
    | some ss =>
      rw [execNormalize_of_samples (by omega) hss]
      simp only [← maxAbsOf_smpSamples_eq_zero_iff hss]
      refine reports_next ?_
      split
      · rw [normalizeSamples_of_zero ‹_›]; rfl
      · rw [normalizeSamples_of_ne_zero ‹_›]; rfl

/-- Settles O25: each kind of word reports its own first error. -/
theorem firstErrorIsReported : Obligations.FirstErrorIsReported := by
  intro w s
  change Reports (runCommand w s) (firstError w s)
  cases wordRuns w with
  | illegal why hw =>
    rw [runCommand_of_illegal s hw, firstError_of_illegal s hw]
    exact reports_next rfl
  | badWidth width hw hwidth hrun =>
    rw [hrun, ← hw, firstError_decode, hwidth]
    exact reports_next rfl
  | decode width unpack hw hwidth hrun =>
    rw [hrun, ← hw, firstError_decode, if_pos hwidth]
    exact decodeCommand_reports _ _ s
  | normalize hw hrun =>
    rw [hrun, ← hw]
    exact execNormalize_reports s

/-! ## Errors are precise -/

/-- `t` is `s` after an error, in which only STATUS, the engine and the MAXABS of a DIVIDE_BY_ZERO were written (R84). -/
def PreciseError (s t : State) : Prop :=
  t = { errorState t.status.errCode t.status.fmtCause s with
        maxAbs := if t.status.errCode = .divideByZero then 0 else s.maxAbs } ∧
    (t.status.errCode ≠ .formatError → t.status.fmtCause = .none)

theorem errorState_precise {e : ErrCode} {c : FmtCause} (s : State) (he : e ≠ .divideByZero)
    (hc : e ≠ .formatError → c = .none) : PreciseError s (errorState e c s) :=
  ⟨by simp [errorState, he], hc⟩

/-- The checks of a DECODE divide by nothing (R61). -/
theorem decodeCheck_ne_divideByZero {W : Nat} {s : State} {e : ErrCode} {c : FmtCause}
    (h : decodeCheck W s = some (e, c)) : e ≠ .divideByZero := by
  unfold decodeCheck at h
  repeat' split at h
  all_goals cases h
  all_goals decide

theorem decodeCommand_precise {W : Nat} {unpack : List Byte → Int} {s t : State}
    (h : decodeCommand W unpack s = .next t) (herr : t.status.errCode ≠ .ok) : PreciseError s t := by
  obtain ⟨e, c, hc, rfl⟩ | ⟨-, vs, -, rfl⟩ := decodeCommand_next h
  · obtain ⟨he, hcause⟩ := decodeCheck_error hc
    rw [finish_eq_errorState he]
    exact errorState_precise s (decodeCheck_ne_divideByZero hc) (not_imp_comm.1 hcause.1)
  · exact absurd rfl herr

theorem execNormalize_precise {s t : State} (h : execNormalize s = .next t) (herr : t.status.errCode ≠ .ok) :
    PreciseError s t := by
  obtain ⟨-, rfl⟩ | ⟨-, ss, -, ⟨-, rfl⟩ | ⟨-, rfl⟩⟩ := execNormalize_next h
  · rw [finish_eq_errorState (by decide)]
    exact errorState_precise s (by decide) fun _ => rfl
  · rw [finish_eq_errorState (by decide)]
    exact ⟨rfl, fun _ => rfl⟩
  · exact absurd rfl herr

/-- Settles O26: the errors of each kind of word are precise. -/
theorem errorsArePrecise : Obligations.ErrorsArePrecise := by
  intro w s t h herr
  change PreciseError s t
  cases wordRuns w with
  | illegal why hw =>
    cases (runCommand_of_illegal s hw).symm.trans h
    exact errorState_precise s (by decide) fun _ => rfl
  | badWidth width hw hwidth hrun =>
    cases (hrun s).symm.trans h
    exact errorState_precise s (by decide) fun hne => absurd rfl hne
  | decode width unpack hw hwidth hrun => exact decodeCommand_precise ((hrun s).symm.trans h) herr
  | normalize hw hrun => exact execNormalize_precise ((hrun s).symm.trans h) herr

end Sys2Proof.Machine
end

section
/-! PROOFS of the family 70_reset_and_hazards: the reset, the end of a run, accesses while the engine is Busy, own writes
read back, and the outputs that an acceptance makes unseen. -/

namespace Sys2Proof.Machine

/-! ## Reset -/

/-- Settles O47: each register of the reset state is 0 or a parameter, and an empty buffer reads nothing. -/
theorem resetState : Obligations.ResetState :=
  ⟨by decide, rfl, rfl, rfl, rfl, rfl, rfl, rfl, rfl, rfl, fun b _ => by cases b <;> rfl⟩

/-- A reset event at the head of the script is the reset input (R92). -/
theorem step_reset {s : State} {rest : List Event} (h : s.script = .reset :: rest) :
    step s = .next (resetInput (setScript rest s)) := by
  unfold step; rw [h]

/-- Settles O48: the reset input looks at nothing of the state but what it keeps. -/
theorem resetFromEveryState : Obligations.ResetFromEveryState := fun _ _ h => step_reset h

/-! ## The engine's turn and the end of a run -/

/-- With the script exhausted or an engine event at its head the engine takes its turn (R101). -/
theorem step_turn {s : State} (h : s.script = [] ∨ ∃ rest, s.script = .engine :: rest) :
    step s = engineStep (setScript s.script.tail s) := by
  obtain hnil | ⟨rest, hengine⟩ := h
  · have htail : s.script.tail = s.script := by rw [hnil, List.tail_nil]
    rw [step_nil hnil, htail]
    rfl
  · rw [step_engine hengine, hengine, List.tail_cons]

/-- Settles O31: the turn runs the latched word, whose completion leaves the engine Idle with DONE = 1, unless it meets an
unwritten byte. -/
theorem busyEngineCompletes : Obligations.BusyEngineCompletes := by
  intro s cmd hbusy hturn
  rw [step_turn hturn, engineStep_of_busy (s := setScript s.script.tail s) hbusy]
  refine (runCommand_total cmd _).imp_left ?_
  rintro ⟨t, hrun⟩
  have heff := runCommand_effect hrun
  obtain ⟨e, c, hst, -⟩ := heff.status_eq
  exact ⟨t, hrun, heff.engine_idle, heff.script_eq, by rw [hst, Status.complete_done]⟩

theorem HostEffect.script_eq {s t : State} (h : HostEffect s t) : t.script = s.script := by
  cases h with
  | stored => exact hostStore_script ..
  | _ => rfl

/-- A step with an event at the head of the script takes it off; only POLL may stay there, and then STATUS was read or a
command completed (R46, R59). -/
theorem step_progress {s t : State} {e : Event} {rest : List Event} (hscript : s.script = e :: rest)
    (h : step s = .next t) :
    t.script = rest ∨ t.readLog = s.status.word :: s.readLog ∨ ∃ cmd, s.engine = .busy cmd ∧ t.engine = .idle := by
  cases e with
  | host x => exact .inl (hostAccess_effect ((step_host hscript).symm.trans h)).script_eq
  | poll spins =>
    obtain ⟨es, rfl⟩ | ⟨cmd, hbusy, hrun⟩ := pollStep_next ((step_poll hscript).symm.trans h)
    · exact .inr (.inl rfl)
    · exact .inr (.inr ⟨cmd, hbusy, (runCommand_effect hrun).engine_idle⟩)
  | engine =>
    obtain ⟨-, rfl⟩ | ⟨cmd, -, hrun⟩ := engineStep_effect ((step_engine hscript).symm.trans h)
    · exact .inl rfl
    · exact .inl (runCommand_effect hrun).script_eq
  | reset =>
    cases (step_reset hscript).symm.trans h
    exact .inl rfl

/-- Settles O34: with an event left a step shortens the script, logs a value or ends a command, and with none left a Busy
engine ends its command. -/
theorem runHasEndedIffStepChangesNothing : Obligations.RunHasEndedIffStepChangesNothing := by
  intro s
  constructor
  · rintro ⟨hnil, hidle⟩
    rw [step_nil hnil, engineStep, hidle]
  · intro h
    cases hscript : s.script with
    | nil =>
      refine ⟨hscript, ?_⟩
      obtain ⟨hidle, -⟩ | ⟨cmd, -, hrun⟩ := engineStep_effect ((step_nil hscript).symm.trans h)
      · exact hidle
      · exact (runCommand_effect hrun).engine_idle
    | cons e rest =>
      obtain hrest | hlog | ⟨cmd, hbusy, hidle⟩ := step_progress hscript h
      · exact absurd (hscript.symm.trans hrest) (List.cons_ne_self e rest)
      · exact absurd hlog.symm (List.cons_ne_self _ _)
      · exact absurd (hbusy.symm.trans hidle) (by simp)

/-! ## Accesses while the engine is Busy -/

/-- What is listed for some registers, an offset or an offset with a value, belongs to one of them, with what is known of
them all. -/
theorem exists_register_of_mem {α : Type} (f : HostReg → α) {rs : List HostReg} {p : HostReg → Prop} {x : α}
    (hx : x ∈ rs.map f) (hp : ∀ r ∈ rs, p r) : ∃ r, p r ∧ x = f r := by
  obtain ⟨r, hr, rfl⟩ := List.mem_map.1 hx
  exact ⟨r, hp r hr, rfl⟩

theorem hostBufWrite_of_busy {b : Buffer} {s : State} {cmd : Word} (a n : Nat) (v : Word) (hb : b ≠ .nrmBuf)
    (h : s.engine = .busy cmd) : hostBufWrite b a n v s = .fault .hostWriteWhileBusy := by
  simp [hostBufWrite, hb, not_accepting_of_busy s h]

/-- Settles O44: a write names a register that is read-only or not, or a buffer that the host may write or NRM_BUF. -/
theorem writesWhileBusy : Obligations.WritesWhileBusy := by
  intro s cmd rest hp hbusy
  have hwritable : ∀ r ∈ [HostReg.ctrl, .channels, .frames, .inLen, .sampleCount], readOnlyRegister r = false := by
    decide
  have hreadOnly : ∀ r ∈ [HostReg.status, .maxAbsLo, .maxAbsHi, .inCap, .sampleCap], readOnlyRegister r = true := by
    decide
  refine ⟨fun off hoff v h => ?_, fun b a n v hb hg h => ?_, fun off hoff v h => ?_, fun u a n v ha h => ?_⟩
  · obtain ⟨r, hr, rfl⟩ := exists_register_of_mem registerOffset hoff hwritable
    exact (step_writeReg h).trans (hostRegWrite_of_busy v hr hbusy)
  · exact (step_writeBuf hp hg h).trans (hostBufWrite_of_busy a n v hb hbusy)
  · obtain ⟨r, hr, rfl⟩ := exists_register_of_mem registerOffset hoff hreadOnly
    exact (step_writeReg h).trans (hostRegWrite_readOnly v _ hr)
  · have haddr : (busAddress .nrmBuf a).toNat = 0x30000000 + a := busAddress_toNat .nrmBuf ha
    exact step_nrmWrite h (by omega) (by omega)

/-- While the engine is Busy a read of an output register is a draw (R99). -/
theorem step_readReg_busy {s : State} {cmd : Word} {r : HostReg} {rest : List Event} (hbusy : s.engine = .busy cmd)
    (hr : outputRegister r = true) (h : s.script = .host (.read (registerOffset r) 4) :: rest) :
    step s = .next (returnAny 4 (setScript rest s)) := by
  have hacc := not_accepting_of_busy (setScript rest s) hbusy
  rw [step_readReg h]
  simp [hostRegRead, anyValueRegister, hacc, hr]

/-- While the engine is Busy a read of an output buffer is a draw, whatever is written there (R99). -/
theorem hostBufRead_of_busy {b : Buffer} {s : State} {cmd : Word} (a n : Nat) (hb : outputBuffer b = true)
    (h : s.engine = .busy cmd) : hostBufRead b a n s = .next (returnAny n s) := by
  simp [hostBufRead, hb, not_accepting_of_busy s h]

/-- Settles O45: a read of an output is a draw, and every other one returns the value that is there. -/
theorem readsWhileBusy : Obligations.ReadsWhileBusy := by
  intro s cmd rest hp hbusy
  have hvalue : ∀ r ∈ [HostReg.channels, .frames, .inLen, .inCap, .sampleCap],
      r ≠ .status ∧ outputRegister r = false := by decide
  have houtput : ∀ r ∈ [HostReg.sampleCount, .maxAbsLo, .maxAbsHi], outputRegister r = true := by decide
  refine ⟨fun h => ⟨_, (step_readReg (r := .status) h).trans (hostRegRead_status _)⟩, fun x hx h => ?_,
    fun a n hg h bs hbs => ?_, fun off hoff h => ?_, fun b a n hb hg h => ?_⟩
  · obtain ⟨r, ⟨hr, hout⟩, rfl⟩ := exists_register_of_mem (fun r => (registerOffset r, registerValue r s)) hx hvalue
    have hdefined : anyValueRegister r s = false := by simp [anyValueRegister, not_accepting_of_busy s hbusy, hout]
    exact step_readReg_value h hr hdefined
  · exact (step_readBuf hp hg h).trans (hostBufRead_seen (.inl rfl) hbs fun _ _ => rfl)
  · obtain ⟨r, hr, rfl⟩ := exists_register_of_mem registerOffset hoff houtput
    exact ⟨_, step_readReg_busy hbusy hr h⟩
  · have hout : outputBuffer b = true := by
      cases b with
      | inBuf => exact absurd rfl hb
      | smpBuf => rfl
      | nrmBuf => rfl
    exact ⟨_, (step_readBuf hp hg h).trans (hostBufRead_of_busy a n hout hbusy)⟩

/-! ## Own writes read back -/

theorem setScript_hostStore (es : List Event) (b : Buffer) (a : Nat) (bs : List Byte) (s : State) :
    setScript es (hostStore b a bs s) = hostStore b a bs (setScript es s) := by cases b <;> rfl

/-- What the host has stored it reads back, whether its bytes were unseen before or not (R96). -/
theorem hostBufRead_hostStore {b : Buffer} {s : State} (a n : Nat) (v : Word) (hb : b ≠ .nrmBuf)
    (hidle : s.engine = .idle) :
    hostBufRead b a n (hostStore b a (toBytes n v.toNat) s) =
      .next (returnRead (BitVec.ofNat 32 (v.toNat % 2 ^ (8 * n))) (hostStore b a (toBytes n v.toNat) s)) := by
  have hvalue : v.toNat % 2 ^ (8 * n) = ofBytes (toBytes n v.toNat) := by rw [ofBytes_toBytes, pow_mul]; rfl
  rw [hvalue]
  refine hostBufRead_seen (.inr ?_) ?_ fun j hj => ?_
  · rw [hostStore_engine, hidle]
  · rw [bufferOf_hostStore, if_pos rfl]
    simpa using Memory.readBytes_store (bufferOf b s) a (toBytes n v.toNat)
  · rw [hostStore_unseen, Unseen.hides_wrote hb, toBytes_length, if_pos ⟨rfl, by omega, by omega⟩]

/-- A step that reads what the host has just stored returns it (R96). -/
theorem step_readBuf_hostStore {s : State} {b : Buffer} {a n : Nat} {rest : List Event} (v : Word)
    (hp : s.params.legal) (hg : goodAccess s.params b a n) (hb : b ≠ .nrmBuf) (hidle : s.engine = .idle)
    (h : s.script = readBuf b a n :: rest) :
    step (hostStore b a (toBytes n v.toNat) s) =
      .next (returnRead (BitVec.ofNat 32 (v.toNat % 2 ^ (8 * n)))
        (hostStore b a (toBytes n v.toNat) (setScript rest s))) := by
  rw [step_readBuf (by rwa [hostStore_params]) (by rwa [hostStore_params]) ((hostStore_script ..).trans h),
    setScript_hostStore]
  exact hostBufRead_hostStore (s := setScript rest s) a n v hb hidle

/-- Settles O53: the write leaves the value in place and seen, and the read returns it. -/
theorem hostWritesAreVisible : Obligations.HostWritesAreVisible := by
  intro s v rest hp hidle
  refine ⟨fun h => ?_, fun b a n hb hg h => ?_⟩
  · obtain ⟨-, -, -, hwrite⟩ :=
      hostRegWrite_readWrite_of_idle (s := setScript (.host (.read 0x14 4) :: rest) s) v hidle
    have hfirst := (step_writeReg (r := .sampleCount) h).trans hwrite
    rw [stepN_succ_of_next hfirst]
    refine ⟨_, stepN_succ_of_next (step_readReg_value (r := .sampleCount) rfl (by decide) ?_), rfl, rfl⟩
    exact anyValueRegister_eq_false (fun _ => ⟨hidle, rfl⟩) (by simp)
  · have hfirst := (step_writeBuf hp hg h).trans (hostBufWrite_of_idle a n v hb hidle)
    have hsecond := step_readBuf_hostStore (s := setScript (readBuf b a n :: rest) s) v hp hg hb hidle rfl
    rw [stepN_succ_of_next hfirst]
    exact ⟨_, stepN_succ_of_next hsecond, hostStore_script .., congrArg _ (hostStore_readLog ..)⟩

/-! ## What an acceptance makes unseen -/

/-- The outputs of a DECODE.Ix are SAMPLE_COUNT and SMP_BUF (R97). -/
theorem Unseen.accept_decode {w : Word} (u : Unseen)
    (hw : w ∈ [(0x00000101 : Word), 0x00000201, 0x00000301, 0x00000401, 0x00000801]) :
    u.accept w = { u with count := true, smp := true, since := [] } := by
  simp only [List.mem_cons, List.not_mem_nil, or_false] at hw
  rcases hw with rfl | rfl | rfl | rfl | rfl <;> rfl

/-- Words that are none of the six have no outputs: DECODE.BADWIDTH and the words that are no command (R71, R84). -/
theorem Unseen.accept_other {w : Word} (u : Unseen)
    (hw : w ∉ [(0x00000101 : Word), 0x00000201, 0x00000301, 0x00000401, 0x00000801, 0x00000002]) : u.accept w = u := by
  unfold Unseen.accept
  cases hd : decodeWord w with
  | illegal why => rfl
  | command i =>
    obtain ⟨-, rfl⟩ := decodeWord_eq_command_iff.1 hd
    cases i with
    | decodeBadWidth width => rfl
    | _ => exact absurd hw (by decide)

/-- Settles O54: the account after the acceptance is that of the word's kind. -/
theorem acceptanceHidesItsOutputs : Obligations.AcceptanceHidesItsOutputs := by
  intro s w rest h hidle
  refine ⟨_, step_ctrlWrite_of_idle h hidle, fun hw => ?_, fun hw => ?_, fun hw => Unseen.accept_other _ hw⟩
  · have hunseen : (acceptCommand w (setScript rest s)).unseen = _ := Unseen.accept_decode s.unseen hw
    rw [hunseen]
    exact ⟨rfl, fun _ => rfl, rfl⟩
  · subst hw
    exact ⟨rfl, fun _ => rfl, rfl, fun _ => rfl⟩

end Sys2Proof.Machine
end
